-- ==== Sys2Proof/Word.lean ====
section
/-! DEFINITION. The value types of the spec: bytes, `N`-bit words, the 32-bit count (R11, R15). -/

namespace Sys2Proof

/-- One 8-bit symbol of the Decoder's ingress (R25, R51). -/
abbrev Byte := BitVec 8

/-- An `N`-bit unsigned value (R9, R15); `n` is the configuration's `N`. -/
abbrev Word (n : Nat) := BitVec n

/-- The value of the increase counter, 32 bits whatever `N` is (R11). -/
abbrev Count := BitVec 32

end Sys2Proof
end

