-- ==== Sys2Proof/Config.lean ====
section
/-! DEFINITION. What a machine is built with (00_scope.md R9 to R14, 70_reset_and_hazards.md R205, R207)
and the free values: constants with no body, for what the spec leaves open and for what the host drives. -/

namespace Sys2Proof

/-- How `acc` is updated on an `OTHER` byte (R13, R108). -/
inductive NondigitMode where
  | draw
  | wrap
deriving DecidableEq, Repr

/-- When the validity ramp shifts (R13, R144, R158). -/
inductive RampAdvance where
  | onAccept
  | perCycle
deriving DecidableEq, Repr

/-- What drives the Decoder's `eg_ready` port: the host, or a combinational function of host ports and
of registers (R207 (a)). `inReady` is the Decoder's own `in_ready`: a wire that reads it closes the loop
that R205 refuses (log 16). -/
inductive ReadyWire where
  | const (b : Bool)
  | hostReady
  | hostInValid
  | egValid
  | windowValid (k : Nat)
  | inReady
  | not (a : ReadyWire)
  | and (a b : ReadyWire)
  | or (a b : ReadyWire)
deriving DecidableEq, Repr

/-- What drives a WindowCounter's ingress: the host's ports, or the Decoder through the connector of
R207 (b). -/
inductive Feed where
  | host
  | connector
deriving DecidableEq, Repr

/-- The parameters of a machine, fixed for a run (R9, R13, R63). Each WindowCounter carries its own `W`
and feed beside its registers. -/
structure Params where
  /-- `N` of R9. -/
  n : Nat
  nondigit : NondigitMode
  ramp : RampAdvance
  ready : ReadyWire
deriving DecidableEq, Repr

/-- The reference instance's `N` (R9). -/
def Config.referenceN : Nat := 32

/-- FREE VALUE: `acc` after the `i`-th `OTHER` byte taken under `draw` (R108, U1; log 5). -/
opaque Config.nondigitDraw : (n : Nat) → (i : Nat) → Word n

/-- FREE VALUE: the `eg_data` port in cycle `t` while `eg_valid = 0` (R93, U2; log 4). -/
opaque Config.egDataDraw : (n : Nat) → (t : Nat) → Word n

/-- FREE VALUE: the host's Decoder `in_valid` in cycle `t` where no schedule row fixes it (R8; log 9). -/
opaque Config.hostInValid : (t : Nat) → Bool

/-- FREE VALUE: the host's Decoder `in_data` in cycle `t` where no schedule row fixes it (R8; log 9). -/
opaque Config.hostInData : (t : Nat) → Byte

/-- FREE VALUE: the host's Decoder `eg_ready` in cycle `t` where no schedule row fixes it (R8; log 9). -/
opaque Config.hostEgReady : (t : Nat) → Bool

/-- FREE VALUE: the host's `in_valid` for instance `k` in cycle `t` where no row fixes it (R8; log 9). -/
opaque Config.hostWindowValid : (t k : Nat) → Bool

/-- FREE VALUE: the host's `in_data` for instance `k` in cycle `t` where no row fixes it (R8; log 9). -/
opaque Config.hostWindowData : (n : Nat) → (t k : Nat) → Word n

end Sys2Proof
end

