-- ==== Sys2Proof/Syntax.lean ====
section
/-! DEFINITION. The operations of the hardware, one constructor per row of spec/opcode_table.json,
and the encodings they are read from (30_encoding.md). -/

namespace Sys2Proof

/-- The per-cycle operations (R2, R81). The first five are the Decoder's, the last two are those of
the WindowCounter instance `k`; operands are the fields of the encodings of R70 (log 14). -/
inductive Instr where
  /-- A Decoder cycle with no ingress transfer (R109). -/
  | noxfer
  /-- The end-of-stream sentinel byte is offered (R107). -/
  | sent
  /-- The record terminator is offered (R106). -/
  | lf
  /-- A digit byte of value `d` is offered (R105). -/
  | digit (d : BitVec 4)
  /-- A byte of no other class is offered (R108). -/
  | other (b : Byte)
  /-- Instance `k` has `in_valid = 1` and `in_data = x` (R147). -/
  | sample (k : Nat) (x : Nat)
  /-- Instance `k` has `in_valid = 0` (R148). -/
  | idle (k : Nat)
deriving DecidableEq, Repr

/-- The class of a `DB` byte (R71). -/
inductive ByteClass where
  | sent
  | lf
  | digit (d : BitVec 4)
  | other
deriving DecidableEq, Repr

/-- The input formats of R70; `ws k` is the input of WindowCounter instance `k`. -/
inductive Format where
  | db
  | dc
  | ws (k : Nat)
deriving DecidableEq, Repr

/-- An encoded operation: the format it is read in and its bits, bit 0 least significant. In `ws` bit 0
is `v` and the sample `s` is the bits above it (log 12). -/
structure Code where
  fmt : Format
  bits : Nat
deriving DecidableEq, Repr

/-- Why bits are no operation of a format. -/
inductive DecodeError where
  /-- The bits do not fit the format's width (R70). -/
  | tooWide
  /-- `DC` with `in_xfer = 1`: the byte selects the operation, not this bit (R74). -/
  | byteSelects
  /-- There is no byte to read. -/
  | noByte
deriving DecidableEq, Repr

end Sys2Proof
end

