-- ==== Sys2Proof/Decode.lean ====
section
/-! DEFINITION. From bits to operations and back (30_encoding.md R70 to R75, R80, R81). -/

namespace Sys2Proof

/-- `SENT`, the end-of-stream sentinel byte (R12; log 19). -/
def sentinelByte : Byte := 0x00

/-- `LF`, the record terminator (R12; log 19). -/
def lfByte : Byte := 0x0A

/-- `ZERO`, the digit base (R12; log 19). -/
def zeroByte : Byte := 0x30

/-- The class of a byte: `cls` of R71, with the digit value of R72. -/
def cls (b : Byte) : ByteClass :=
  if b = sentinelByte then .sent
  else if b = lfByte then .lf
  else if zeroByte.toNat ≤ b.toNat ∧ b.toNat ≤ zeroByte.toNat + 9 then .digit ((b - zeroByte).setWidth 4)
  else .other

/-- The operation a taken byte selects (R74). -/
def decodeByte (b : Byte) : Instr :=
  match cls b with
  | .sent => .sent
  | .lf => .lf
  | .digit d => .digit d
  | .other => .other b

/-- The Decoder's operation in a cycle with transfer signal `xfer` (R74, R102). -/
def decodeCycle (xfer : Bool) (b : Byte) : Instr :=
  if xfer then decodeByte b else .noxfer

/-- The operation of instance `k` in a cycle with `in_valid = v` (R75): the sample is read only when
`v = 1`. -/
def decodeSample (k : Nat) (v : Bool) (s : Nat) : Instr :=
  if v then .sample k s else .idle k

/-- The width in bits of a format on a machine of width `n` (R70). -/
def Format.width (n : Nat) : Format → Nat
  | .db => 8
  | .dc => 1
  | .ws _ => n + 1

/-- Decoding, on a machine of width `n`: total, refusing by name what is no operation of the format. -/
def decode (n : Nat) (c : Code) : Except DecodeError Instr :=
  if 2 ^ c.fmt.width n ≤ c.bits then .error .tooWide
  else
    match c.fmt with
    | .db => .ok (decodeByte (BitVec.ofNat 8 c.bits))
    | .dc => if c.bits = 0 then .ok .noxfer else .error .byteSelects
    | .ws k => .ok (decodeSample k (c.bits.testBit 0) (c.bits / 2))

/-- Decoding the Decoder's byte stream: the first byte's operation and the bytes after it (R80: one
byte each, no prefix, no mode). -/
def decodeStream : List Byte → Except DecodeError (Instr × List Byte)
  | [] => .error .noByte
  | b :: bs => .ok (decodeByte b, bs)

/-- The encoding of an operation, from the table of R81. -/
def encode : Instr → Code
  | .noxfer => ⟨.dc, 0⟩
  | .sent => ⟨.db, sentinelByte.toNat⟩
  | .lf => ⟨.db, lfByte.toNat⟩
  | .digit d => ⟨.db, zeroByte.toNat + d.toNat⟩
  | .other b => ⟨.db, b.toNat⟩
  | .sample k x => ⟨.ws k, 2 * x + 1⟩
  | .idle k => ⟨.ws k, 0⟩

/-- The format a word of `nbits` bits is read in: up to a byte it is the Decoder's byte, above that the
input of WindowCounter instance 0 (log 12). -/
def tableFormat (nbits : Nat) : Format :=
  if nbits ≤ 8 then .db else .ws 0

/-- The operation of the table word `w` of `nbits` bits, on the reference machine (log 12). -/
def decodeTableWord (nbits w : Nat) : Option Instr :=
  if 2 ^ nbits ≤ w then none
  else
    match decode Config.referenceN ⟨tableFormat nbits, w⟩ with
    | .ok i => some i
    | .error _ => none

end Sys2Proof
end

