-- ==== Sys2Proof/Machine/State.lean ====
section
/-! DEFINITION. The state of the hardware as plain data (10_state.md), the reset state, and the reasons a
step can stop. -/

namespace Sys2Proof.Machine

/-- The Decoder state `st` (R21, R37). -/
inductive DecoderState where
  | parsing
  | emitEOF
  | finished
deriving DecidableEq, Repr

/-- The registers of a Decoder of width `n` (R21 to R24). -/
structure Decoder (n : Nat) where
  st : DecoderState
  acc : Word n
  outValid : Bool
  outData : Word n
deriving DecidableEq, Repr

/-- One WindowCounter instance: its window size and feed, fixed for a run (R10, R207), and its registers
(R26 to R29). `d` and `r` list slot 0 first; in a well-formed machine they have `w - 1` and `w`
elements. -/
structure Window (n : Nat) where
  w : Nat
  feed : Feed
  d : List (Word n)
  r : List Bool
  prev : Word n
  count : Count
deriving DecidableEq, Repr

/-- A WindowCounter's ingress ports as the host drives them (R30). -/
structure WindowIn (n : Nat) where
  valid : Bool
  data : Word n
deriving DecidableEq, Repr

/-- One row of a host schedule: the input ports of one cycle (R25, R30, R79). Entry `k` of `windows` is
instance `k`'s. -/
structure HostRow (n : Nat) where
  inValid : Bool
  inData : Byte
  egReady : Bool
  windows : List (WindowIn n)
deriving DecidableEq, Repr

/-- The state. `cfg`, `dec` and `windows` are the hardware's (R32); `schedule`, `cycle` and `draws` are
the model's own (log 5, 9): the rows the host has fixed from this cycle on, the commits so far (R16), and
the free accumulator values taken so far. -/
structure State where
  cfg : Params
  dec : Decoder cfg.n
  windows : List (Window cfg.n)
  schedule : List (HostRow cfg.n)
  cycle : Nat
  draws : Nat
deriving DecidableEq, Repr

/-- The hardware never faults (R180, R187), so no constructor: no step of the model answers a fault.
Safe. -/
inductive Fault where
deriving DecidableEq, Repr

/-- Why the model gives a cycle no meaning (R187). -/
inductive Refusal where
  /-- Raised by the dispatch for an operation without a meaning: none in this model. Safe. -/
  | notModelled (mnemonic : String)
  /-- Raised by every operation on a machine whose configuration is not well formed (R14). Safe. -/
  | illFormedConfiguration
  /-- Raised by every operation on a composition whose `eg_ready` reads `in_ready` (R205). Safe. -/
  | combinationalLoop
  /-- Raised by every operation in a state with a pair of `st` and `out_valid` that no run reaches (R39,
  U10). Safe. -/
  | unreachableState
  /-- Raised by a WindowCounter operation that names an instance the machine does not have (log 14).
  Safe: no step selects one. -/
  | noSuchInstance (k : Nat)
deriving DecidableEq, Repr

/-- The Decoder after reset (R200). -/
def Decoder.reset (n : Nat) : Decoder n :=
  { st := .parsing, acc := 0, outValid := false, outData := 0 }

/-- A WindowCounter of size `w` after reset (R200). -/
def Window.reset (n w : Nat) (feed : Feed) : Window n :=
  { w := w, feed := feed, d := List.replicate (w - 1) 0, r := List.replicate w false, prev := 0, count := 0 }

/-- Any machine of the spec after reset: parameters, and a size and feed for each WindowCounter (R189,
R200). -/
abbrev State.build (cfg : Params) (instances : List (Nat × Feed)) : State :=
  { cfg := cfg
    dec := Decoder.reset cfg.n
    windows := instances.map fun p => Window.reset cfg.n p.1 p.2
    schedule := []
    cycle := 0
    draws := 0 }

/-- The parameters of the reference machine: `N = 32` and the default modes (R9, R13; log 1, 5, 8). -/
def referenceParams : Params :=
  { n := Config.referenceN, nondigit := .draw, ramp := .onAccept, ready := .hostReady }

/-- The source's instantiation after reset: one Decoder and WindowCounters at `W = 1` and `W = 3`, all
ports driven by the host (R20, R200; log 1, 2, 16). -/
def State.reset : State :=
  State.build referenceParams [(1, .host), (3, .host)]

end Sys2Proof.Machine
end

