-- ==== Sys2Proof/Machine/Operands.lean ====
section
/-! DEFINITION. The arithmetic of the operations, all modulo `2^N` (R15, R105, R108, R141), the shift
into a chain of registers, and the bit encoding of `st`. -/

namespace Sys2Proof.Machine

/-- The radix of the decimal input (R12). -/
def radix (n : Nat) : Word n := BitVec.ofNat n 10

/-- `EOF_WORD`, the all-ones word of width `n` (R12, R76). -/
def eofWord (n : Nat) : Word n := BitVec.allOnes n

/-- `acc` after a digit of value `d` (R105). -/
def accumulate {n : Nat} (acc : Word n) (d : BitVec 4) : Word n :=
  acc * radix n + d.setWidth n

/-- `acc` after an `OTHER` byte under `wrap` (R108); for `n < 8` the byte enters modulo `2^n` (log 6). -/
def foldByte {n : Nat} (acc : Word n) (b : Byte) : Word n :=
  acc * radix n + b.setWidth n - BitVec.ofNat n 0x30

/-- A chain of registers after `x` shifts into slot 0 and the last element falls out (R143, R144). -/
def shiftIn {α : Type} (x : α) (l : List α) : List α :=
  (x :: l).dropLast

/-- The window sum: the sample plus every delay register (R141). -/
def windowSum {n : Nat} (x : Word n) (d : List (Word n)) : Word n :=
  d.foldl (· + ·) x

/-- The 2-bit encoding of `st`, where one is wanted (R37; log 20). -/
def DecoderState.code : DecoderState → BitVec 2
  | .parsing => 0
  | .emitEOF => 1
  | .finished => 2

end Sys2Proof.Machine
end

