-- ==== Sys2Proof/Machine/Flags.lean ====
section
/-! DEFINITION. The next values that every cycle computes: `out_valid` (R110), the `EmitEOF` to
`Finished` transition (R111), the validity ramp (R144, R158) and the increase count (R142, R146). -/

namespace Sys2Proof.Machine

/-- `out_valid`'s next value (R110). -/
def outValidNext (trigger outValid egReady : Bool) : Bool :=
  trigger || (outValid && !egReady)

/-- What R111 makes of `st` before the cycle: `Finished` once the EOF word transfers. -/
def eofTransition (st : DecoderState) (egXfer : Bool) (written : DecoderState) : DecoderState :=
  if st = .emitEOF ∧ egXfer = true then .finished else written

/-- The ramp's last stage `r[W-1]`: the gate (R142) and the `eg_valid` port (R149). -/
def rampTop (r : List Bool) : Bool :=
  r.getLastD false

/-- The ramp's next value under each reading (R144, R158). -/
def rampNext (mode : RampAdvance) (accept : Bool) (r : List Bool) : List Bool :=
  match mode with
  | .onAccept => if accept then shiftIn true r else r
  | .perCycle => shiftIn (r.headD false || accept) r

/-- `count`'s next value for an accepted sample with window sum `sum`: one more, modulo `2^32`, when the
gate is open and the sum exceeds `prev` as an unsigned value (R146, R151). -/
def countNext {n : Nat} (gate : Bool) (sum prev : Word n) (count : Count) : Count :=
  if gate && prev.ult sum then count + 1 else count

end Sys2Proof.Machine
end

