-- ==== Sys2Proof/Machine/Ports.lean ====
section
/-! DEFINITION. Input ports, output ports and combinational signals: functions of the registers and of
this cycle's inputs, never stored (R31, R57). -/

namespace Sys2Proof.Machine

/-! ### Ports the host drives (R8, R25, R30): the current schedule row, or a free value (log 9) -/

/-- The Decoder's `in_valid`. -/
def State.inValid (s : State) : Bool :=
  (s.schedule.head?.map HostRow.inValid).getD (Config.hostInValid s.cycle)

/-- The Decoder's `in_data`. -/
def State.inData (s : State) : Byte :=
  (s.schedule.head?.map HostRow.inData).getD (Config.hostInData s.cycle)

/-- The host's `eg_ready`. -/
def State.hostReady (s : State) : Bool :=
  (s.schedule.head?.map HostRow.egReady).getD (Config.hostEgReady s.cycle)

/-- What the host drives on instance `k`'s ingress where no row fixes it. -/
def State.freeWindowIn (s : State) (k : Nat) : WindowIn s.cfg.n :=
  { valid := Config.hostWindowValid s.cycle k, data := Config.hostWindowData s.cfg.n s.cycle k }

/-- What the host drives on instance `k`'s ingress. -/
def State.hostWindowIn (s : State) (k : Nat) : WindowIn s.cfg.n :=
  (s.schedule.head?.bind fun row => row.windows[k]?).getD (s.freeWindowIn k)

/-! ### WindowCounter outputs (R149) -/

/-- `eg_valid` of a WindowCounter, which is also its counting gate (R142, R149). -/
def Window.valid {n : Nat} (v : Window n) : Bool :=
  rampTop v.r

/-- `eg_valid` of instance `k`, if there is one (R149). -/
def State.windowValid (s : State) (k : Nat) : Option Bool :=
  s.windows[k]?.map Window.valid

/-- `eg_count` of instance `k`, if there is one (R149). -/
def State.windowCount (s : State) (k : Nat) : Option Count :=
  s.windows[k]?.map Window.count

/-! ### What drives `eg_ready` (R205, R207; log 16) -/

/-- The composition closes a combinational loop: the wire reads `in_ready` (R205). -/
def readsInReady : ReadyWire → Bool
  | .const _ => false
  | .hostReady => false
  | .hostInValid => false
  | .egValid => false
  | .windowValid _ => false
  | .inReady => true
  | .not a => readsInReady a
  | .and a b => readsInReady a || readsInReady b
  | .or a b => readsInReady a || readsInReady b

/-- Every instance the wire reads is one of the `m` the machine has. -/
def wireInRange (m : Nat) : ReadyWire → Bool
  | .const _ => true
  | .hostReady => true
  | .hostInValid => true
  | .egValid => true
  | .windowValid k => decide (k < m)
  | .inReady => true
  | .not a => wireInRange m a
  | .and a b => wireInRange m a && wireInRange m b
  | .or a b => wireInRange m a && wireInRange m b

/-- The wire's value in this cycle. The `inReady` case is never used: such a machine is refused
(`State.check`). -/
def wireValue (s : State) : ReadyWire → Bool
  | .const b => b
  | .hostReady => s.hostReady
  | .hostInValid => s.inValid
  | .egValid => s.dec.outValid
  | .windowValid k => (s.windowValid k).getD false
  | .inReady => false
  | .not a => !wireValue s a
  | .and a b => wireValue s a && wireValue s b
  | .or a b => wireValue s a || wireValue s b

/-- The Decoder's `eg_ready` input. -/
def State.egReady (s : State) : Bool :=
  wireValue s s.cfg.ready

/-! ### Decoder outputs and signals (R100 to R104) -/

/-- `eg_valid` (R100). -/
def State.egValid (s : State) : Bool :=
  s.dec.outValid

/-- The `eg_data` port: the register while `eg_valid = 1`, else unspecified (R93, R100; log 4). -/
def State.egData (s : State) : Word s.cfg.n :=
  if s.egValid then s.dec.outData else Config.egDataDraw s.cfg.n s.cycle

/-- The handshake arbiter's `in_ready` (R101). -/
def State.inReady (s : State) : Bool :=
  decide (s.dec.st = .parsing) && (!s.dec.outValid || s.egReady)

/-- `in_xfer` (R102). -/
def State.inXfer (s : State) : Bool :=
  s.inReady && s.inValid

/-- `eg_xfer` (R103). -/
def State.egXfer (s : State) : Bool :=
  s.egValid && s.egReady

/-- `trigger` (R104). -/
def State.trigger (s : State) : Bool :=
  s.inXfer && (decide (cls s.inData = .lf) || decide (cls s.inData = .sent))

/-! ### A WindowCounter's ingress (R140, R207) -/

/-- The connector's output: the pending word as it transfers, except the EOF word (R207 (b)). -/
def State.connectorOut (s : State) : WindowIn s.cfg.n :=
  { valid := s.egValid && s.egReady && decide (s.dec.st ≠ .emitEOF), data := s.egData }

/-- The ingress ports of instance `k`, which is fed by `feed`. -/
def State.windowIn (s : State) (k : Nat) (feed : Feed) : WindowIn s.cfg.n :=
  match feed with
  | .host => s.hostWindowIn k
  | .connector => s.connectorOut

/-! ### Which machines have a meaning (R14, R187, R205, U10) -/

/-- A WindowCounter has `W ≥ 1`, `W - 1` delay registers and `W` ramp registers (R10, R26, R27). -/
def Window.wellFormed {n : Nat} (v : Window n) : Bool :=
  decide (1 ≤ v.w) && decide (v.d.length = v.w - 1) && decide (v.r.length = v.w)

/-- The configuration is well formed (R14); the mode parameters are so by their types. -/
def State.configOk (s : State) : Bool :=
  decide (4 ≤ s.cfg.n) && s.windows.all Window.wellFormed && wireInRange s.windows.length s.cfg.ready

/-- The pairs of `st` and `out_valid` that U10 has a model refuse are excluded (R39 (a), (b)). -/
def Decoder.reachable {n : Nat} (c : Decoder n) : Bool :=
  match c.st with
  | .parsing => true
  | .emitEOF => c.outValid
  | .finished => !c.outValid

/-- Why the model gives this state's cycles no meaning, if it gives none (R187). -/
def State.check (s : State) : Option Refusal :=
  if s.configOk = false then some .illFormedConfiguration
  else if readsInReady s.cfg.ready = true then some .combinationalLoop
  else if s.dec.reachable = false then some .unreachableState
  else none

end Sys2Proof.Machine
end

