-- ==== Sys2Proof/Machine/Ops.lean ====
section
/-! DEFINITION. The shared operations the meanings are written over. There is no memory to read or write
(R50) and no exception to take or return from (R180, R184, R185). -/

namespace Sys2Proof.Machine

/-- A machine that R187 refuses is refused, whatever the operation. -/
def checked (s : State) (r : Host.Outcome State Fault Refusal) : Host.Outcome State Fault Refusal :=
  match s.check with
  | some why => .refused why
  | none => r

/-- A Decoder's commit: the operation's writes, then what every cycle does (R110, R111, R113). `c` holds the
registers before the cycle, `acc`, `outData` and `st` the values the operation gives them. -/
def Decoder.commit {n : Nat} (c : Decoder n) (egReady trigger : Bool) (acc outData : Word n)
    (st : DecoderState) : Decoder n :=
  { st := eofTransition c.st (c.outValid && egReady) st
    acc := acc
    outValid := outValidNext trigger c.outValid egReady
    outData := outData }

/-- A Decoder cycle that takes no byte (R109). -/
def holdCycle (s : State) : Host.Outcome State Fault Refusal :=
  checked s (.next { s with dec := s.dec.commit s.egReady false s.dec.acc s.dec.outData s.dec.st })

/-- A Decoder cycle in which a byte is offered: taken where the arbiter is ready, and otherwise no transfer
(R101, R102, R183 (b); log 11). -/
def offeredCycle (s : State) (trigger : Bool) (acc outData : Word s.cfg.n) (st : DecoderState) :
    Host.Outcome State Fault Refusal :=
  if s.inReady then checked s (.next { s with dec := s.dec.commit s.egReady trigger acc outData st })
  else holdCycle s

/-- A WindowCounter's commit for an accepted sample: the delay chain, the ramp, `prev` and `count`, all from
the values before it (R143 to R147). -/
def Window.accept {n : Nat} (mode : RampAdvance) (x : Word n) (v : Window n) : Window n :=
  { v with
    d := shiftIn x v.d
    r := rampNext mode true v.r
    prev := windowSum x v.d
    count := countNext v.valid (windowSum x v.d) v.prev v.count }

/-- A WindowCounter's commit without a sample (R148, R158). -/
def Window.rest {n : Nat} (mode : RampAdvance) (v : Window n) : Window n :=
  { v with r := rampNext mode false v.r }

/-- A cycle of WindowCounter instance `k` (R35, R36: it writes no other component's registers). -/
def windowCycle (s : State) (k : Nat) (commit : Window s.cfg.n → Window s.cfg.n) :
    Host.Outcome State Fault Refusal :=
  checked s
    (match s.windows[k]? with
    | none => .refused (.noSuchInstance k)
    | some v => .next { s with windows := s.windows.set k (commit v) })

end Sys2Proof.Machine
end

