-- ==== Sys2Proof/Machine/Decoder.lean ====
section
/-! DEFINITION. The meanings of the Decoder's operations (41_decoder.md R105 to R109). -/

namespace Sys2Proof.Machine

/-- `NOXFER` (R109). -/
def execNoxfer (s : State) : Host.Outcome State Fault Refusal :=
  holdCycle s

/-- `SENT` (R107); `acc` holds (D8; log 7). -/
def execSent (s : State) : Host.Outcome State Fault Refusal :=
  offeredCycle s true s.dec.acc (eofWord s.cfg.n) .emitEOF

/-- `LF` (R106). -/
def execLf (s : State) : Host.Outcome State Fault Refusal :=
  offeredCycle s true 0 s.dec.acc s.dec.st

/-- `DIGIT` (R105). -/
def execDigit (d : BitVec 4) (s : State) : Host.Outcome State Fault Refusal :=
  offeredCycle s false (accumulate s.dec.acc d) s.dec.outData s.dec.st

/-- `OTHER` under `draw` (R108): when the byte is taken `acc` is the next free value, and the counter of
free values advances (log 5). -/
def otherDraw (s : State) : Host.Outcome State Fault Refusal :=
  if s.inReady then
    checked s
      (.next
        { s with
          dec := s.dec.commit s.egReady false (Config.nondigitDraw s.cfg.n s.draws) s.dec.outData s.dec.st
          draws := s.draws + 1 })
  else holdCycle s

/-- `OTHER` (R108). -/
def execOther (b : Byte) (s : State) : Host.Outcome State Fault Refusal :=
  match s.cfg.nondigit with
  | .draw => otherDraw s
  | .wrap => offeredCycle s false (foldByte s.dec.acc b) s.dec.outData s.dec.st

end Sys2Proof.Machine
end

