-- ==== Sys2Proof/Machine/WindowCounter.lean ====
section
/-! DEFINITION. The meanings of the WindowCounter's operations (42_window_counter.md R147, R148, R158). -/

namespace Sys2Proof.Machine

/-- `SAMPLE` (R147). -/
def execSample (k x : Nat) (s : State) : Host.Outcome State Fault Refusal :=
  windowCycle s k (Window.accept s.cfg.ramp (BitVec.ofNat s.cfg.n x))

/-- `IDLE` (R148; under `perCycle` the ramp goes on, R158). -/
def execIdle (k : Nat) (s : State) : Host.Outcome State Fault Refusal :=
  windowCycle s k (Window.rest s.cfg.ramp)

end Sys2Proof.Machine
end

