-- ==== Sys2Proof/Machine/Dispatch.lean ====
section
/-! DEFINITION. One arm per operation of spec/opcode_table.json. -/

namespace Sys2Proof.Machine

def exec (i : Instr) (s : State) : Host.Outcome State Fault Refusal :=
  match i with
  | .noxfer => Sys2Proof.Machine.execNoxfer s
  | .sent => Sys2Proof.Machine.execSent s
  | .lf => Sys2Proof.Machine.execLf s
  | .digit d => Sys2Proof.Machine.execDigit d s
  | .other b => Sys2Proof.Machine.execOther b s
  | .sample k x => Sys2Proof.Machine.execSample k x s
  | .idle k => Sys2Proof.Machine.execIdle k s

end Sys2Proof.Machine
end

