-- ==== Sys2Proof/Machine/Cycle.lean ====
section
/-! DEFINITION. One cycle of the whole hardware: the operation of every component instance, all selected in
the propagate phase from the state before the cycle, then committed (R56 to R58; log 10). -/

namespace Sys2Proof.Machine

/-- The Decoder's operation this cycle (R74, R102). -/
def State.decoderOp (s : State) : Instr :=
  decodeCycle s.inXfer s.inData

/-- The operation of instance `k`, fed by `feed`, this cycle (R75, R140). -/
def State.windowOp (s : State) (k : Nat) (feed : Feed) : Instr :=
  decodeSample k (s.windowIn k feed).valid (s.windowIn k feed).data.toNat

/-- The operations of the instances `vs`, which are numbered from `k`. -/
def State.windowOpsFrom (s : State) : Nat → List (Window s.cfg.n) → List Instr
  | _, [] => []
  | k, v :: vs => s.windowOp k v.feed :: s.windowOpsFrom (k + 1) vs

/-- Every instance's operation this cycle, the Decoder's first. -/
def State.cycleOps (s : State) : List Instr :=
  s.decoderOp :: s.windowOpsFrom 0 s.windows

/-- The operations' meanings one after the other, stopping at a refusal. -/
def runOps : List Instr → State → Host.Outcome State Fault Refusal
  | [], s => .next s
  | i :: is, s =>
    match exec i s with
    | .next t => runOps is t
    | .fault f => .fault f
    | .refused why => .refused why

/-- The clock: the next cycle's number and schedule row (R16, R56). -/
abbrev State.tick (s : State) : State :=
  { s with cycle := s.cycle + 1, schedule := s.schedule.drop 1 }

/-- One cycle (R56). -/
def wholeCycle (s : State) : Host.Outcome State Fault Refusal :=
  match runOps s.cycleOps s with
  | .next t => .next t.tick
  | .fault f => .fault f
  | .refused why => .refused why

/-- The schedule row that offers a table word to this cycle: a byte to the Decoder with `eg_ready = 1` and
no sample to any of the `m` instances, or, above 8 bits, an input to instance 0 and nothing else (log 12,
13). -/
def fetchRow (n m nbits w : Nat) : HostRow n :=
  match tableFormat nbits with
  | .ws _ =>
    { inValid := false
      inData := 0
      egReady := true
      windows := { valid := w.testBit 0, data := BitVec.ofNat n (w / 2) } :: List.replicate (m - 1) ⟨false, 0⟩ }
  | .db =>
    { inValid := true, inData := BitVec.ofNat 8 w, egReady := true, windows := List.replicate m ⟨false, 0⟩ }
  | .dc => { inValid := false, inData := 0, egReady := true, windows := List.replicate m ⟨false, 0⟩ }

end Sys2Proof.Machine
end

