-- ==== Sys2Proof/Machine/Step.lean ====
section
/-! DEFINITION. The step, and how a table word comes to be the input of the next cycle. -/

namespace Sys2Proof.Machine

/-- One step is one cycle of every component instance (R20, R56). -/
def step (s : State) : Host.Outcome State Fault Refusal :=
  wholeCycle s

/-- The state whose next cycle the host drives with the table word `w` of `nbits` bits (log 13). -/
@[reducible] def State.withFetchWord (s : State) (nbits w : Nat) : State :=
  { s with schedule := fetchRow s.cfg.n s.windows.length nbits w :: s.schedule.drop 1 }

end Sys2Proof.Machine
end

