-- ==== Sys2Proof/Safety.lean ====
section
/-! DEFINITION. The terms claims are stated in: which states are admissible, the invariant, what a run
transfers, the hosts of R95, and reference results written from the spec's derived
properties apart from the machine. -/

namespace Sys2Proof.Safety

open Sys2Proof.Machine

/-- The model gives this state's cycles a meaning: no refusal of R187 applies. -/
abbrev Admissible (s : State) : Prop :=
  s.check = none

/-- A thermometer code: an element after an unset one is unset (R40 (a)). -/
abbrev Thermometer (r : List Bool) : Prop :=
  r.Pairwise fun a b => b = true → a = true

/-- R40 (a) and (c) of one WindowCounter. -/
abbrev WindowInvariant {n : Nat} (v : Window n) : Prop :=
  Thermometer v.r ∧ (v.valid = false → v.count = 0)

/-- The machine's invariant: R14, R39 and R205 by `Admissible`, R40 (a) and (c) for every instance. -/
abbrev Invariant (s : State) : Prop :=
  Admissible s ∧ ∀ v ∈ s.windows, WindowInvariant v

/-- `k` cycles. -/
def runFor : Nat → State → Host.Outcome State Fault Refusal
  | 0, s => .next s
  | k + 1, s =>
    match step s with
    | .next t => runFor k t
    | .fault f => .fault f
    | .refused why => .refused why

/-- The word that leaves the Decoder this cycle (R103). -/
def transferred (s : State) : List Nat :=
  if s.egXfer then [s.dec.outData.toNat] else []

/-- The word a trigger loads this cycle (R104, R106, R107). -/
def loaded (s : State) : List Nat :=
  if s.trigger then [if s.inData = 0x00 then 2 ^ s.cfg.n - 1 else s.dec.acc.toNat] else []

/-- The pending word (R23). -/
def pending (s : State) : List Nat :=
  if s.dec.outValid then [s.dec.outData.toNat] else []

/-- What `event` records in each of `k` cycles. -/
def recorded (event : State → List Nat) : Nat → State → List Nat
  | 0, _ => []
  | k + 1, s =>
    event s ++
      match step s with
      | .next t => recorded event k t
      | .fault _ => []
      | .refused _ => []

/-- What a host chooses in one cycle of `hostRun`: whether it offers its next byte, and `eg_ready`. -/
structure Turn where
  offers : Bool
  ready : Bool
deriving DecidableEq, Repr

/-- The state as a host that sends the bytes `bs` in order drives this cycle: `in_valid = 1` when it offers and
a byte is left, with that byte on `in_data`. R95 does not say when a host offers, so that is the turn's choice
(DESIGN CHOICE, log 22). -/
abbrev offer (bs : List Byte) (turn : Turn) (s : State) : State :=
  { s with
    schedule :=
      [{ inValid := turn.offers && !bs.isEmpty, inData := bs.headD 0, egReady := turn.ready, windows := [] }] }

/-- A run of one cycle for each turn: the words transferred, the bytes not yet taken and the last state. Every
host of R95 is such a run: it may pause before any byte, and the next byte is offered only after a transfer.
The turns also allow what R95 (b) does not, an offer withdrawn before it is taken (log 22). -/
def hostRun : List Turn → List Byte → State → Option (List Nat × List Byte × State)
  | [], bs, s => some ([], bs, s)
  | turn :: turns, bs, s =>
    match step (offer bs turn s) with
    | .next t =>
      (hostRun turns (if (offer bs turn s).inXfer then bs.tail else bs) t).map fun out =>
        (transferred (offer bs turn s) ++ out.1, out.2)
    | .fault _ => none
    | .refused _ => none

/-- `k` turns of a host that never pauses, at either side (R213). -/
def alwaysOn (k : Nat) : List Turn :=
  List.replicate k ⟨true, true⟩

/-- The `eg_ready` wire is 1 in every cycle in which the host's port is: so are the constant 1 that R207 (a)
names first and the host's port itself. -/
abbrev ReadyWhenHostIs (s : State) : Prop :=
  ∀ u : State, u.cfg = s.cfg → u.hostReady = true → u.egReady = true

/-- The bytes of the grammar of R78: digits, the terminator and the sentinel. -/
abbrev Plain (b : Byte) : Prop :=
  b.toNat = 0x00 ∨ b.toNat = 0x0A ∨ (0x30 ≤ b.toNat ∧ b.toNat ≤ 0x39)

/-- The words a stream of plain bytes stands for when digits of value `a` have been read (R52, R114, R116,
R117, R119). -/
def streamWords (n : Nat) : Nat → List Byte → List Nat
  | _, [] => []
  | a, b :: bs =>
    if b.toNat = 0x00 then [2 ^ n - 1]
    else if b.toNat = 0x0A then a :: streamWords n 0 bs
    else streamWords n ((a * 10 + (b.toNat - 0x30)) % 2 ^ n) bs

/-- What the Decoder still has to deliver: its pending word and what the untaken bytes will give. -/
def outstanding (s : State) (bs : List Byte) : List Nat :=
  pending s ++ if s.dec.st = .parsing then streamWords s.cfg.n s.dec.acc.toNat bs else []

/-- A line of digit values as bytes (R78). -/
def lineBytes (ds : List (Fin 10)) : List Byte :=
  ds.map (fun d => BitVec.ofNat 8 (0x30 + d.val)) ++ [0x0A]

/-- A stream of lines, ended by the sentinel (R78). -/
def streamBytes (lines : List (List (Fin 10))) : List Byte :=
  lines.flatMap lineBytes ++ [0x00]

/-- The value of a line, most significant digit first (R52), modulo `2^n` (R114). -/
def lineValue (n : Nat) (ds : List (Fin 10)) : Nat :=
  Nat.ofDigits 10 (ds.reverse.map fun d => d.val) % 2 ^ n

/-- One cycle's input of instance `k`, in the notation of R79: a sample or none. -/
def inputOp (k : Nat) : Option Nat → Instr
  | some x => .sample k x
  | none => .idle k

/-- The operations of instance `k` over a sequence of inputs. -/
def inputOps (k : Nat) (xs : List (Option Nat)) : List Instr :=
  xs.map (inputOp k)

/-- The sums modulo `2^n` of `w` consecutive samples, in order (R155). -/
def windowSums (n w : Nat) (xs : List Nat) : List Nat :=
  (List.range (xs.length + 1 - w)).map fun j => ((xs.drop j).take w).sum % 2 ^ n

/-- How many elements exceed the one before them (R155). -/
def increases (l : List Nat) : Nat :=
  (l.zip l.tail).countP fun p => decide (p.1 < p.2)

/-- A WindowCounter that has accepted nothing and counted nothing, whatever its `d` and `prev` hold (R27,
R29, R157). -/
abbrev Fresh {n : Nat} (v : Window n) : Prop :=
  v.r = List.replicate v.w false ∧ v.count = 0

end Sys2Proof.Safety
end

