-- ==== Sys2Proof/WellFormed.lean ====
section
/-! DEFINITION. Which operations the encodings of 30_encoding.md can express. The byte ranges are
written from R71 and R73 here, apart from the decoder's, so that the round trip says something. -/

namespace Sys2Proof

/-- Operands in the ranges their encodings admit, on a machine of width `n` with `m` WindowCounters:
a digit value is at most 9 (R72), an `OTHER` byte is none of the named bytes (R73), a sample fits in `n`
bits (R70) and an instance exists (R189). -/
def Instr.wellFormed (n m : Nat) : Instr → Bool
  | .noxfer => true
  | .sent => true
  | .lf => true
  | .digit d => decide (d.toNat ≤ 9)
  | .other b =>
    decide (b.toNat ≠ 0x00) && decide (b.toNat ≠ 0x0A) && !(decide (0x30 ≤ b.toNat) && decide (b.toNat ≤ 0x39))
  | .sample k x => decide (k < m) && decide (x < 2 ^ n)
  | .idle k => decide (k < m)

end Sys2Proof
end

