-- ==== Sys2Proof/Certificates/Slice0/Obligations.lean ====
section
/-! DEFINITION. The statements for the provers. Each docstring names the rule it formalises. -/

open Sys2Proof Sys2Proof.Machine Sys2Proof.Safety

/-! ### Encodings -/

/-- R71, with the digit value of R72: which bytes have which class, for all 256 bytes. -/
def Obligations.ByteClassesAreAsTabled : Prop :=
  ∀ b : Byte,
    (cls b = .sent ↔ b.toNat = 0x00) ∧
    (cls b = .lf ↔ b.toNat = 0x0A) ∧
    (∀ d : BitVec 4, cls b = .digit d ↔ 0x30 ≤ b.toNat ∧ b.toNat ≤ 0x39 ∧ d.toNat = b.toNat - 0x30) ∧
    (cls b = .other ↔
      b.toNat ≠ 0x00 ∧ b.toNat ≠ 0x0A ∧ ¬(0x30 ≤ b.toNat ∧ b.toNat ≤ 0x39))

/-- R70 to R75, R81: decoding the encoding of a well-formed operation gives it back, with every operand at
every value the encoding admits. The packing of a `WS` word is the model's choice (log 12). -/
def Obligations.DecodeOfEncodeIsIdentity : Prop :=
  ∀ (n m : Nat) (i : Instr), i.wellFormed n m = true → decode n (encode i) = .ok i

/-- R71, R75: encoding what a byte, or a `WS` word that holds a sample, decodes to gives the bits back. -/
def Obligations.EncodeOfDecodeIsIdentity : Prop :=
  (∀ b : Byte, encode (decodeByte b) = ⟨.db, b.toNat⟩) ∧
  (∀ (n k w : Nat) (i : Instr), w % 2 = 1 → decode n ⟨.ws k, w⟩ = .ok i → encode i = ⟨.ws k, w⟩)

/-- R70, R71, R75: what decodes is well formed on a machine that has the instance the bits are read at. -/
def Obligations.DecodedOperationsAreWellFormed : Prop :=
  (∀ (n m : Nat) (bits : Nat) (i : Instr),
    (decode n ⟨.db, bits⟩ = .ok i ∨ decode n ⟨.dc, bits⟩ = .ok i) → i.wellFormed n m = true) ∧
  (∀ (n m k bits : Nat) (i : Instr), k < m → decode n ⟨.ws k, bits⟩ = .ok i → i.wellFormed n m = true)

/-- R81, E7: words written out from the opcode map decode to the operations they stand for. -/
def Obligations.TabledWordsDecode : Prop :=
  decodeTableWord 8 0x00 = some .sent ∧
  decodeTableWord 8 0x0A = some .lf ∧
  decodeTableWord 8 0x37 = some (.digit 7) ∧
  decodeTableWord 8 0x0D = some (.other 0x0D) ∧
  decode 32 ⟨.dc, 0⟩ = .ok .noxfer ∧
  decode 32 ⟨.ws 1, 0b110001111⟩ = .ok (.sample 1 199) ∧
  decode 32 ⟨.ws 0, 0b110001110⟩ = .ok (.idle 0)

/-! ### Reset -/

/-- R200: every machine, whatever its parameters and instances, starts with `st = Parsing` and `acc = 0` (the
source's values, R21 and R22) and with every other register 0 (the spec's own decision D4; log 3). -/
def Obligations.ResetRegisterValues : Prop :=
  ∀ (cfg : Params) (instances : List (Nat × Feed)),
    (State.build cfg instances).dec.st = .parsing ∧
    (State.build cfg instances).dec.acc.toNat = 0 ∧
    (State.build cfg instances).dec.outValid = false ∧
    (State.build cfg instances).dec.outData.toNat = 0 ∧
    (State.build cfg instances).windows.length = instances.length ∧
    ∀ v ∈ (State.build cfg instances).windows,
      (∀ x ∈ v.d, x.toNat = 0) ∧ (∀ b ∈ v.r, b = false) ∧ v.prev.toNat = 0 ∧ v.count.toNat = 0

/-- R14, R39, R40, R202: a machine built with a well-formed configuration and no combinational loop meets the
invariant at reset, and so does the reference machine. -/
def Obligations.BuiltMachineMeetsTheInvariant : Prop :=
  Invariant State.reset ∧
  ∀ (cfg : Params) (instances : List (Nat × Feed)),
    4 ≤ cfg.n → (∀ p ∈ instances, 1 ≤ p.1) → wireInRange instances.length cfg.ready = true →
    readsInReady cfg.ready = false → Invariant (State.build cfg instances)

/-! ### The Decoder's operations -/

/-- R105: a digit byte the arbiter takes. -/
def Obligations.DigitAccumulates : Prop :=
  ∀ (s : State) (b : Byte), Admissible s → s.inReady = true → 0x30 ≤ b.toNat → b.toNat ≤ 0x39 →
    ∃ a : Word s.cfg.n,
      a.toNat = (s.dec.acc.toNat * 10 + (b.toNat - 0x30)) % 2 ^ s.cfg.n ∧
      exec (decodeByte b) s =
        .next { s with dec := { s.dec with acc := a, outValid := s.dec.outValid && !s.egReady } }

/-- R106: a record terminator the arbiter takes. -/
def Obligations.LfEmitsTheAccumulator : Prop :=
  ∀ (s : State) (b : Byte), Admissible s → s.inReady = true → b.toNat = 0x0A →
    exec (decodeByte b) s =
      .next { s with dec := { s.dec with outData := s.dec.acc, acc := 0, outValid := true } }

/-- R107: a sentinel the arbiter takes. That `acc` holds is the spec's own decision D8 (log 7). -/
def Obligations.SentinelEmitsTheEofWord : Prop :=
  ∀ (s : State) (b : Byte), Admissible s → s.inReady = true → b.toNat = 0x00 →
    ∃ w : Word s.cfg.n,
      w.toNat = 2 ^ s.cfg.n - 1 ∧
      exec (decodeByte b) s =
        .next { s with dec := { s.dec with outData := w, st := .emitEOF, outValid := true } }

/-- R108: a byte of class `OTHER` the arbiter takes: `acc` gets the formula's value under `wrap` and a value
nothing constrains under `draw` (the spec's own decision D7; log 5), and no other register differs from
`DIGIT`'s. -/
def Obligations.OtherByteChangesOnlyTheAccumulator : Prop :=
  ∀ (s : State) (b : Byte), Admissible s → s.inReady = true → cls b = .other →
    (s.cfg.nondigit = .draw →
      ∃ a : Word s.cfg.n,
        exec (decodeByte b) s =
          .next
            { s with
              dec := { s.dec with acc := a, outValid := s.dec.outValid && !s.egReady }
              draws := s.draws + 1 }) ∧
    (s.cfg.nondigit = .wrap →
      ∃ a : Word s.cfg.n,
        (a.toNat + 0x30) % 2 ^ s.cfg.n = (s.dec.acc.toNat * 10 + b.toNat) % 2 ^ s.cfg.n ∧
        exec (decodeByte b) s =
          .next { s with dec := { s.dec with acc := a, outValid := s.dec.outValid && !s.egReady } })

/-- R109: when the Decoder's operation is `NOXFER`, and what it does. -/
def Obligations.NoxferHolds : Prop :=
  ∀ s : State, Admissible s →
    (s.decoderOp = .noxfer ↔
      s.inValid = false ∨ s.dec.st ≠ .parsing ∨ (s.dec.outValid = true ∧ s.egReady = false)) ∧
    exec .noxfer s =
      .next
        { s with
          dec :=
            { s.dec with
              outValid := s.dec.outValid && !s.egReady
              st := if s.dec.st = .emitEOF ∧ s.egXfer = true then .finished else s.dec.st } }

/-- R101, R102, R109: an offered byte that the arbiter does not take has the effect of `NOXFER` (log 11). -/
def Obligations.UntakenByteActsAsNoxfer : Prop :=
  ∀ (s : State) (b : Byte), s.inReady = false → exec (decodeByte b) s = exec .noxfer s

/-- R35, R36, R105 to R109, R111, R113: what every Decoder operation leaves alone: every other component, the
configuration, the clock; `draws` (the model's own counter, log 5) but for `OTHER`; `out_data` but for `LF` and
`SENT`; `acc` but for the three operations that write it; `st` but for `SENT` and R111. That `SENT` holds `acc` is
the spec's own decision D8 (log 7). That a byte operation where the arbiter is not ready writes neither `acc` nor
`out_data` is the model's reading of a byte that is offered and not taken (log 11). -/
def Obligations.DecoderOperationsFrame : Prop :=
  ∀ (s : State) (i : Instr), Admissible s →
    (i = .noxfer ∨ i = .sent ∨ i = .lf ∨ (∃ d, i = .digit d) ∨ ∃ b, i = .other b) →
    ∃ (c : Decoder s.cfg.n) (j : Nat),
      exec i s = .next { s with dec := c, draws := j } ∧
      ((∀ b, i ≠ .other b) → j = s.draws) ∧
      ((i ≠ .lf ∧ i ≠ .sent) → c.outData = s.dec.outData) ∧
      ((i = .noxfer ∨ i = .sent) → c.acc = s.dec.acc) ∧
      (i ≠ .sent → c.st = s.dec.st ∨ (s.dec.st = .emitEOF ∧ s.egXfer = true ∧ c.st = .finished)) ∧
      (s.inReady = false → c.acc = s.dec.acc ∧ c.outData = s.dec.outData)

/-! ### The Decoder, cycle by cycle -/

/-- R110: `out_valid`'s next value in every cycle. -/
def Obligations.OutValidEveryCycle : Prop :=
  ∀ s : State, Admissible s →
    ∃ t, step s = .next t ∧ t.dec.outValid = (s.trigger || (s.dec.outValid && !s.egReady))

/-- R111: the `EmitEOF` to `Finished` transition, which with R107 is the only write of `st`. -/
def Obligations.StateTransitionsEveryCycle : Prop :=
  ∀ s : State, Admissible s →
    ∃ t, step s = .next t ∧
      t.dec.st =
        (if s.dec.st = .emitEOF ∧ s.egXfer = true then .finished
        else if s.inXfer = true ∧ s.inData.toNat = 0x00 then .emitEOF
        else s.dec.st)

/-- R112: in `Finished` nothing transfers, and after any number of cycles every Decoder register holds. -/
def Obligations.FinishedIsTerminal : Prop :=
  ∀ (s : State) (k : Nat), Admissible s → s.dec.st = .finished →
    ∃ t, runFor k s = .next t ∧ t.dec.st = .finished ∧ t.dec.outValid = false ∧
      t.dec.acc.toNat = s.dec.acc.toNat ∧ t.dec.outData.toNat = s.dec.outData.toNat ∧
      t.inReady = false ∧ t.egXfer = false ∧ t.decoderOp = .noxfer

/-- R98: while a word is pending and the consumer is not ready, the Decoder takes nothing and holds every
register. -/
def Obligations.BackpressureHoldsTheDecoder : Prop :=
  ∀ s : State, Admissible s → s.dec.outValid = true → s.egReady = false →
    s.inReady = false ∧
    ∃ vs, step s =
      .next { s with windows := vs, schedule := s.schedule.drop 1, cycle := s.cycle + 1 }

/-- R97, R118: a pending word is replaced only in a cycle in which it transfers, and a trigger in that cycle
leaves the new word pending. -/
def Obligations.PendingWordIsNeverOverwritten : Prop :=
  ∀ s : State, Admissible s → s.dec.outValid = true →
    ∃ t, step s = .next t ∧
      (s.egReady = false → t.dec.outValid = true ∧ t.dec.outData.toNat = s.dec.outData.toNat) ∧
      (s.egReady = true → s.trigger = true → t.dec.outValid = true ∧ loaded s = [t.dec.outData.toNat]) ∧
      (s.egReady = true → s.trigger = false →
        t.dec.outValid = false ∧ t.dec.outData.toNat = s.dec.outData.toNat)

/-- R97: over any number of cycles, under any host, the words transferred are the words loaded, in order,
none lost and none duplicated. -/
def Obligations.WordsAreConserved : Prop :=
  ∀ (k : Nat) (s : State), Admissible s →
    ∃ t, runFor k s = .next t ∧
      pending s ++ recorded loaded k s = recorded transferred k s ++ pending t

/-- R119: once the Decoder has left `Parsing` it takes no byte, for ever. -/
def Obligations.NoByteIsTakenAfterTheSentinel : Prop :=
  ∀ (s : State) (k : Nat), Admissible s → s.dec.st ≠ .parsing →
    ∃ t, runFor k s = .next t ∧ t.dec.st ≠ .parsing ∧ t.inReady = false

/-- R114, R52: from `acc = 0`, the digits of a line leave its value modulo `2^N` in `acc`. -/
def Obligations.AccumulatorLaw : Prop :=
  ∀ (s : State) (ds : List (Fin 10)), Admissible s → s.inReady = true → s.dec.acc.toNat = 0 →
    ∃ t, runOps (ds.map fun d => .digit (BitVec.ofNat 4 d.val)) s = .next t ∧
      t.cfg = s.cfg ∧ t.inReady = true ∧ t.dec.acc.toNat = lineValue s.cfg.n ds

/-- E5, E6, R95, R97, R98, R114: whatever the host's turns are (when it offers its next byte, when it pauses,
and `eg_ready`; log 22), every host of R95 among them, if its bytes are plain the words delivered and those
still outstanding are exactly those the stream stands for. -/
def Obligations.RoundTripUnderBackpressure : Prop :=
  ∀ (s : State) (bs : List Byte) (turns : List Turn),
    Admissible s → (∀ b ∈ bs, Plain b) →
    ∃ ws rest t, hostRun turns bs s = some (ws, rest, t) ∧
      outstanding s bs = ws ++ outstanding t rest ∧ rest <:+ bs

/-- R213, R78, R115: with a byte offered and `eg_ready = 1` in every cycle, by any wire that is 1 when the host's
port is (the constant 1 of R207 (a) among them), a stream of `B` bytes of the grammar is decoded in `B + 1`
cycles: its lines' values modulo `2^N`, then the all-ones word, and the Decoder is `Finished`. -/
def Obligations.StreamIsDecodedAtFullThroughput : Prop :=
  ∀ (s : State) (lines : List (List (Fin 10))),
    Admissible s → ReadyWhenHostIs s → s.dec = Decoder.reset s.cfg.n →
    ∃ t, hostRun (alwaysOn ((streamBytes lines).length + 1)) (streamBytes lines) s =
        some (lines.map (lineValue s.cfg.n) ++ [2 ^ s.cfg.n - 1], [], t) ∧
      t.dec.st = .finished

/-! ### The WindowCounter's operations -/

/-- R147: every register of the instance after an accepted sample. -/
def Obligations.SampleUpdatesEveryRegister : Prop :=
  ∀ (s : State) (k x : Nat) (v : Window s.cfg.n),
    Admissible s → s.windows[k]? = some v → x < 2 ^ s.cfg.n →
    ∃ u : Window s.cfg.n,
      exec (.sample k x) s = .next { s with windows := s.windows.set k u } ∧
      u.w = v.w ∧ u.feed = v.feed ∧
      u.d.length = v.d.length ∧ u.r.length = v.r.length ∧
      (∀ i, i < v.d.length → u.d[i]? = if i = 0 then some (BitVec.ofNat s.cfg.n x) else v.d[i - 1]?) ∧
      (∀ i, i < v.r.length → u.r[i]? = if i = 0 then some true else v.r[i - 1]?) ∧
      u.prev.toNat = (x + (v.d.map BitVec.toNat).sum) % 2 ^ s.cfg.n ∧
      u.count.toNat =
        (if v.r[v.w - 1]? = some true ∧ v.prev.toNat < u.prev.toNat then (v.count.toNat + 1) % 2 ^ 32
        else v.count.toNat)

/-- R151: one more increase takes the counter from `2^32 - 1` to 0. -/
def Obligations.CounterWrapsToZero : Prop :=
  ∀ (s : State) (k x : Nat) (v : Window s.cfg.n),
    Admissible s → s.windows[k]? = some v → x < 2 ^ s.cfg.n →
    v.count.toNat = 2 ^ 32 - 1 → v.r[v.w - 1]? = some true →
    v.prev.toNat < (x + (v.d.map BitVec.toNat).sum) % 2 ^ s.cfg.n →
    ∃ t, exec (.sample k x) s = .next t ∧ t.windowCount k = some 0

/-- R148 under the default reading of the ramp (the spec's own decision D9; log 8): nothing changes. -/
def Obligations.IdleHoldsEveryRegister : Prop :=
  ∀ (s : State) (k : Nat), Admissible s → k < s.windows.length → s.cfg.ramp = .onAccept →
    exec (.idle k) s = .next s

/-- R158 (the spec's own alternative, D9; log 8): under `per_cycle` a cycle without a sample shifts the ramp
and changes nothing else. -/
def Obligations.IdleAdvancesTheRampPerCycle : Prop :=
  ∀ (s : State) (k : Nat) (v : Window s.cfg.n),
    Admissible s → s.windows[k]? = some v → s.cfg.ramp = .perCycle →
    ∃ r : List Bool,
      exec (.idle k) s = .next { s with windows := s.windows.set k { v with r := r } } ∧
      r.length = v.r.length ∧ ∀ i, i < v.r.length → r[i]? = if i = 0 then v.r[0]? else v.r[i - 1]?

/-- R35, R36: what every WindowCounter operation leaves alone: the Decoder, every other instance, the
configuration, the clock. -/
def Obligations.WindowOperationsFrame : Prop :=
  ∀ (s : State) (k : Nat) (i : Instr), Admissible s → k < s.windows.length →
    (i = .idle k ∨ ∃ x, i = .sample k x) →
    ∃ us : List (Window s.cfg.n),
      exec i s = .next { s with windows := us } ∧ us.length = s.windows.length ∧
      ∀ j, j ≠ k → us[j]? = s.windows[j]?

/-- R189, log 14: an operation for an instance the machine does not have is refused by name. -/
def Obligations.MissingInstanceIsRefused : Prop :=
  ∀ (s : State) (k x : Nat), Admissible s → s.windows.length ≤ k →
    exec (.sample k x) s = .refused (.noSuchInstance k) ∧ exec (.idle k) s = .refused (.noSuchInstance k)

/-! ### The WindowCounter over a sequence of inputs -/

/-- R155, R154, R157: for any `d` and `prev` at the start, samples with any idle cycles between them leave the
count of increases among the windows' sums, and `eg_valid` is set once `W` samples have been taken. -/
def Obligations.CountingLaw : Prop :=
  ∀ (s : State) (k : Nat) (v : Window s.cfg.n) (xs : List (Option Nat)),
    Admissible s → s.cfg.ramp = .onAccept → s.windows[k]? = some v → Fresh v →
    ∃ t c, runOps (inputOps k xs) s = .next t ∧ t.windowCount k = some c ∧
      c.toNat = increases (windowSums s.cfg.n v.w (xs.filterMap id)) % 2 ^ 32 ∧
      t.windowValid k = some (decide (v.w ≤ (xs.filterMap id).length))

/-- R158, R211: the two readings of the ramp give the same outputs when the first `W` samples arrive on
consecutive cycles. -/
def Obligations.RampReadingsAgreeBackToBack : Prop :=
  ∀ (s : State) (k a : Nat) (v : Window s.cfg.n) (xs : List Nat) (rest : List (Option Nat)),
    Admissible s → s.windows[k]? = some v → Fresh v → (v.w ≤ xs.length ∨ rest = []) →
    ∃ t t',
      runOps (inputOps k (List.replicate a none ++ xs.map some ++ rest))
        { s with cfg := { s.cfg with ramp := .onAccept } } = .next t ∧
      runOps (inputOps k (List.replicate a none ++ xs.map some ++ rest))
        { s with cfg := { s.cfg with ramp := .perCycle } } = .next t' ∧
      t.windowCount k = t'.windowCount k ∧ t.windowValid k = t'.windowValid k

/-- R157, R36, R207: two machines that differ only in the reset values of `d` and `prev` show the same outputs
after any number of cycles, under any host and any composition. Both are run with the same free values: a drawn
`acc` is the same in both (log 5), and in a cycle with `eg_valid = 0`, where R93 leaves `eg_data` unspecified, its
clause compares the one free value of that cycle (log 4) and says nothing about the hardware. -/
def Obligations.UndecidedResetValuesAreUnobservable : Prop :=
  ∀ (s : State) (vs : List (Window s.cfg.n)) (j : Nat),
    Admissible s → s.cfg.ramp = .onAccept → (∀ v ∈ s.windows, Fresh v) →
    vs.length = s.windows.length →
    (∀ (k : Nat) (v u : Window s.cfg.n), s.windows[k]? = some v → vs[k]? = some u →
      u.w = v.w ∧ u.feed = v.feed ∧ u.r = v.r ∧ u.count = v.count ∧ u.d.length = v.d.length) →
    ∃ t t', runFor j s = .next t ∧ runFor j { s with windows := vs } = .next t' ∧
      (∀ k, t.windowCount k = t'.windowCount k ∧ t.windowValid k = t'.windowValid k) ∧
      t.inReady = t'.inReady ∧ t.egValid = t'.egValid ∧ t.egData.toNat = t'.egData.toNat

/-- R36, R35, R92: an instance, host-fed or connector-fed, steps by its own registers and ingress ports alone:
two machines of one configuration that agree in the instance and in its ports (its data only where its
`in_valid` is 1), whatever else they hold, agree in it after a step. -/
def Obligations.InstancesStepIndependently : Prop :=
  ∀ (s s' : State) (vs : List (Window s.cfg.n)) (c : Decoder s.cfg.n) (rows : List (HostRow s.cfg.n))
    (t j k : Nat) (v : Window s.cfg.n),
    s' = { s with dec := c, windows := vs, schedule := rows, cycle := t, draws := j } →
    Admissible s → Admissible s' → s.windows[k]? = some v → vs[k]? = some v →
    (s'.windowIn k v.feed).valid = (s.windowIn k v.feed).valid →
    ((s.windowIn k v.feed).valid = true →
      (s'.windowIn k v.feed).data.toNat = (s.windowIn k v.feed).data.toNat) →
    ∃ (c₁ c₂ : Decoder s.cfg.n) (us₁ us₂ : List (Window s.cfg.n)) (j₁ j₂ : Nat),
      step s =
        .next
          { s with
            dec := c₁, windows := us₁, schedule := s.schedule.drop 1, cycle := s.cycle + 1, draws := j₁ } ∧
      step s' =
        .next
          { s with
            dec := c₂, windows := us₂, schedule := rows.drop 1, cycle := t + 1, draws := j₂ } ∧
      us₁[k]? = us₂[k]? ∧ us₁[k]?.isSome = true

/-! ### The whole machine -/

/-- R14, R39, R40 (a) and (c), R113, R187: from every state that meets the invariant a cycle gives a next
state that meets it, with the configuration unchanged, and no gate closes (R40 (b)). -/
def Obligations.EveryCycleKeepsTheInvariant : Prop :=
  ∀ s : State, Invariant s →
    ∃ t, step s = .next t ∧ Invariant t ∧ t.cfg = s.cfg ∧
      ∀ k, s.windowValid k = some true → t.windowValid k = some true

/-- R187, R113: a cycle has a next state exactly when none of the refusals applies, and is refused
otherwise. -/
def Obligations.StepRefusesOnlyInadmissibleStates : Prop :=
  ∀ s : State,
    ((∃ t, step s = .next t) ↔ Admissible s) ∧
    ∀ why, s.check = some why →
      step s = .refused why ∧
      (why = .illFormedConfiguration ∨ why = .combinationalLoop ∨ why = .unreachableState)

/-- R14 (decisions D5, D6): a configuration with `N < 4` or an instance with `W = 0` gets no meaning, for any
operation and for the cycle. -/
def Obligations.IllFormedConfigurationIsRefused : Prop :=
  ∀ s : State, (s.cfg.n < 4 ∨ ∃ v ∈ s.windows, v.w = 0) →
    step s = .refused .illFormedConfiguration ∧ ∀ i, exec i s = .refused .illFormedConfiguration

/-- R205, U11: a well-formed composition whose `eg_ready` reads `in_ready` is refused, and only there does
`eg_ready` depend on the Decoder's `st` and `acc`: with no such wire it is the same whatever they hold. -/
def Obligations.CombinationalLoopIsRefused : Prop :=
  ∀ s : State, s.configOk = true →
    (readsInReady s.cfg.ready = true →
      step s = .refused .combinationalLoop ∧ ∀ i, exec i s = .refused .combinationalLoop) ∧
    (readsInReady s.cfg.ready = false →
      ∀ st a, ({ s with dec := { s.dec with st := st, acc := a } } : State).egReady = s.egReady)

/-- R74, R75, R102, R56, R20: the operation of the Decoder is the decoded byte in a transfer cycle and `NOXFER`
otherwise; every instance has one operation, its own, selected by its feed from the state before the cycle; and a
step is the Decoder's meaning, then the meanings of the instances' operations, then the clock. -/
def Obligations.StepRunsTheDecodedOperations : Prop :=
  ∀ s : State,
    (s.windowOpsFrom 0 s.windows).length = s.windows.length ∧
    (∀ k v, s.windows[k]? = some v → (s.windowOpsFrom 0 s.windows)[k]? = some (s.windowOp k v.feed)) ∧
    ∀ t u : State,
      exec (if s.inXfer then decodeByte s.inData else .noxfer) s = .next t →
      runOps (s.windowOpsFrom 0 s.windows) t = .next u →
      step s = .next { u with cycle := u.cycle + 1, schedule := u.schedule.drop 1 }

/-- R75, R140, R96: a host-fed instance samples what the host drives on its ports in every cycle with
`in_valid = 1`, and idles in the others. Where the current row drives its ports that is the row's entry; where no
row does, the host drives them freely (log 9). -/
def Obligations.HostFedInstancesFollowTheirPorts : Prop :=
  ∀ (s : State) (k : Nat),
    (∀ row x, s.schedule.head? = some row → row.windows[k]? = some ⟨true, x⟩ →
      s.windowOp k .host = .sample k x.toNat) ∧
    (∀ row x, s.schedule.head? = some row → row.windows[k]? = some ⟨false, x⟩ → s.windowOp k .host = .idle k) ∧
    ((s.schedule.head?.bind fun row => row.windows[k]?) = none →
      s.windowOp k .host = .idle k ∨ ∃ x, x < 2 ^ s.cfg.n ∧ s.windowOp k .host = .sample k x)

/-- Log 13: on a machine whose instances are host-fed, a table byte that the arbiter is ready for is the
operation of the very next step. -/
def Obligations.FetchedByteRunsNext : Prop :=
  ∀ (s : State) (nbits w : Nat) (i : Instr),
    Admissible s → s.cfg.ramp = .onAccept → (∀ v ∈ s.windows, v.feed = .host) →
    nbits ≤ 8 → decodeTableWord nbits w = some i → (s.withFetchWord nbits w).inReady = true →
    ∃ t, exec i (s.withFetchWord nbits w) = .next t ∧
      step (s.withFetchWord nbits w) =
        .next { t with cycle := t.cycle + 1, schedule := t.schedule.drop 1 }

/-- Logs 12, 13: on a machine of host-fed instances, a table word above 8 bits is the operation of instance 0 in
the very next step: `SAMPLE` of the bits above bit 0 where bit 0 is 1, else `IDLE`; the Decoder's operation of
that step is `NOXFER`, and every other instance idles. -/
def Obligations.FetchedSampleRunsNext : Prop :=
  ∀ (s : State) (nbits w : Nat) (i : Instr),
    Admissible s → (∀ v ∈ s.windows, v.feed = .host) → 0 < s.windows.length →
    8 < nbits → decodeTableWord nbits w = some i →
    i = (if w % 2 = 1 then .sample 0 (w / 2) else .idle 0) ∧
    ∃ t u v,
      exec .noxfer (s.withFetchWord nbits w) = .next t ∧ exec i t = .next u ∧
      runOps ((List.range (s.windows.length - 1)).map fun k => .idle (k + 1)) u = .next v ∧
      step (s.withFetchWord nbits w) = .next { v with cycle := v.cycle + 1, schedule := v.schedule.drop 1 }

/-- R92, U3: `in_data` of the Decoder in a cycle without a transfer, and of an instance in a cycle without a
sample, is not read. -/
def Obligations.UntransferredDataIsIgnored : Prop :=
  ∀ (s : State) (row : HostRow s.cfg.n) (rows : List (HostRow s.cfg.n)),
    (({ s with schedule := row :: rows } : State).inXfer = false → ∀ b,
      step { s with schedule := { row with inData := b } :: rows } =
        step { s with schedule := row :: rows }) ∧
    (∀ k x, row.windows[k]? = some ⟨false, x⟩ → ∀ y,
      step { s with schedule := { row with windows := row.windows.set k ⟨false, y⟩ } :: rows } =
        step { s with schedule := row :: rows })

/-- R207 (b): a connector-fed instance samples the word that transfers, but for the EOF word, and otherwise
idles (the spec's own connector, D12; log 16). -/
def Obligations.ConnectorFiltersTheEofWord : Prop :=
  ∀ (s : State) (k : Nat),
    s.windowOp k .connector =
      if s.dec.outValid = true ∧ s.egReady = true ∧ s.dec.st ≠ .emitEOF then .sample k s.dec.outData.toNat
      else .idle k

/-- R207, R155, R213: bytes to count. A Decoder feeding a fresh instance through the connector, offered a
stream of the grammar by a host that never pauses, with any `eg_ready` wire that is 1 when the host's port is,
leaves in that instance the number of increases among the sums of the lines' values. -/
def Obligations.BytesToCountEndToEnd : Prop :=
  ∀ (s : State) (lines : List (List (Fin 10))) (k : Nat) (v : Window s.cfg.n),
    Admissible s → ReadyWhenHostIs s → s.cfg.ramp = .onAccept → s.dec = Decoder.reset s.cfg.n →
    s.windows[k]? = some v → Fresh v → v.feed = .connector →
    ∃ ws t c, hostRun (alwaysOn ((streamBytes lines).length + 1)) (streamBytes lines) s = some (ws, [], t) ∧
      t.windowCount k = some c ∧
      c.toNat = increases (windowSums s.cfg.n v.w (lines.map (lineValue s.cfg.n))) % 2 ^ 32

/-- R207, R155, R95, R98: the same under any pauses, any backpressure and any `eg_ready` wire: whenever the run of
a stream of the grammar has brought the Decoder to `Finished`, the words transferred are the lines' values and the
all-ones word, and the connector-fed instance holds the number of increases. -/
def Obligations.EveryCompletedRunCountsTheLines : Prop :=
  ∀ (s : State) (lines : List (List (Fin 10))) (turns : List Turn) (k : Nat) (v : Window s.cfg.n),
    Admissible s → s.cfg.ramp = .onAccept → s.dec = Decoder.reset s.cfg.n →
    s.windows[k]? = some v → Fresh v → v.feed = .connector →
    ∃ ws rest t, hostRun turns (streamBytes lines) s = some (ws, rest, t) ∧
      (t.dec.st = .finished →
        ws = lines.map (lineValue s.cfg.n) ++ [2 ^ s.cfg.n - 1] ∧
        ∃ c, t.windowCount k = some c ∧
          c.toNat = increases (windowSums s.cfg.n v.w (lines.map (lineValue s.cfg.n))) % 2 ^ 32)
end

