-- ==== Sys2Proof/Laws/State.lean ====
section
/-! SUPPORT. The field lemmas of the updates of State, Decoder and Window: what each sets and what it leaves
alone. -/

namespace Sys2Proof.Machine

/-! ### `Decoder.commit` -/

section commit
variable {n : Nat} (c : Decoder n) (er tr : Bool) (a o : Word n) (st : DecoderState)

@[simp] theorem Decoder.commit_acc : (c.commit er tr a o st).acc = a := rfl
@[simp] theorem Decoder.commit_outData : (c.commit er tr a o st).outData = o := rfl
@[simp] theorem Decoder.commit_outValid :
    (c.commit er tr a o st).outValid = (tr || (c.outValid && !er)) := rfl
@[simp] theorem Decoder.commit_st :
    (c.commit er tr a o st).st = eofTransition c.st (c.outValid && er) st := rfl

end commit

/-! ### `Window.accept` and `Window.rest` -/

section window
variable {n : Nat} (m : RampAdvance) (x : Word n) (v : Window n)

@[simp] theorem Window.accept_w : (v.accept m x).w = v.w := rfl
@[simp] theorem Window.accept_feed : (v.accept m x).feed = v.feed := rfl
@[simp] theorem Window.accept_d : (v.accept m x).d = shiftIn x v.d := rfl
@[simp] theorem Window.accept_r : (v.accept m x).r = rampNext m true v.r := rfl
@[simp] theorem Window.accept_prev : (v.accept m x).prev = windowSum x v.d := rfl
@[simp] theorem Window.accept_count :
    (v.accept m x).count = countNext v.valid (windowSum x v.d) v.prev v.count := rfl
@[simp] theorem Window.rest_w : (v.rest m).w = v.w := rfl
@[simp] theorem Window.rest_feed : (v.rest m).feed = v.feed := rfl
@[simp] theorem Window.rest_d : (v.rest m).d = v.d := rfl
@[simp] theorem Window.rest_r : (v.rest m).r = rampNext m false v.r := rfl
@[simp] theorem Window.rest_prev : (v.rest m).prev = v.prev := rfl
@[simp] theorem Window.rest_count : (v.rest m).count = v.count := rfl

end window

/-! ### `State.tick`, `State.withFetchWord` and `Safety.offer` -/

section state
variable (s : State) (nbits w : Nat) (bs : List Byte) (turn : Safety.Turn)

@[simp] theorem State.tick_cfg : s.tick.cfg = s.cfg := rfl
@[simp] theorem State.tick_dec : s.tick.dec = s.dec := rfl
@[simp] theorem State.tick_windows : s.tick.windows = s.windows := rfl
@[simp] theorem State.tick_schedule : s.tick.schedule = s.schedule.drop 1 := rfl
@[simp] theorem State.tick_cycle : s.tick.cycle = s.cycle + 1 := rfl
@[simp] theorem State.tick_draws : s.tick.draws = s.draws := rfl

@[simp] theorem State.withFetchWord_cfg : (s.withFetchWord nbits w).cfg = s.cfg := rfl
@[simp] theorem State.withFetchWord_dec : (s.withFetchWord nbits w).dec = s.dec := rfl
@[simp] theorem State.withFetchWord_windows : (s.withFetchWord nbits w).windows = s.windows := rfl
@[simp] theorem State.withFetchWord_cycle : (s.withFetchWord nbits w).cycle = s.cycle := rfl
@[simp] theorem State.withFetchWord_draws : (s.withFetchWord nbits w).draws = s.draws := rfl

@[simp] theorem offer_cfg : (Safety.offer bs turn s).cfg = s.cfg := rfl
@[simp] theorem offer_dec : (Safety.offer bs turn s).dec = s.dec := rfl
@[simp] theorem offer_windows : (Safety.offer bs turn s).windows = s.windows := rfl
@[simp] theorem offer_inValid : (Safety.offer bs turn s).inValid = (turn.offers && !bs.isEmpty) := rfl
@[simp] theorem offer_inData : (Safety.offer bs turn s).inData = bs.headD 0 := rfl
@[simp] theorem offer_hostReady : (Safety.offer bs turn s).hostReady = turn.ready := rfl

end state

end Sys2Proof.Machine
end

