-- ==== Sys2Proof/Laws/Chain.lean ====
section
/-! SUPPORT. The register chains: their lengths, and that the ramp stays a thermometer code. -/

namespace Sys2Proof.Machine

@[simp] theorem length_shiftIn {α : Type} (x : α) (l : List α) : (shiftIn x l).length = l.length := by
  simp [shiftIn]

@[simp] theorem length_rampNext (m : RampAdvance) (a : Bool) (r : List Bool) :
    (rampNext m a r).length = r.length := by
  cases m <;> cases a <;> simp [rampNext]

/-- The two readings agree on an accepted sample (R144, R158). -/
theorem rampNext_true (m : RampAdvance) (r : List Bool) : rampNext m true r = shiftIn true r := by
  cases m <;> simp [rampNext]

/-- Shifting in a 1, or slot 0 itself, keeps the thermometer code (R40 (a)). -/
theorem thermometer_shiftIn {r : List Bool} {b : Bool} (hb : r.headD false = true → b = true)
    (h : Safety.Thermometer r) : Safety.Thermometer (shiftIn b r) := by
  refine List.Pairwise.sublist (List.dropLast_sublist _) (List.pairwise_cons.2 ⟨fun a ha hat => hb ?_, h⟩)
  cases r with
  | nil => simp at ha
  | cons c r =>
    rcases List.mem_cons.1 ha with rfl | ha
    · exact hat
    · exact List.rel_of_pairwise_cons h ha hat

/-- Every ramp update keeps the thermometer code. -/
theorem thermometer_rampNext (m : RampAdvance) (a : Bool) {r : List Bool} (h : Safety.Thermometer r) :
    Safety.Thermometer (rampNext m a r) := by
  cases m with
  | onAccept =>
    cases a
    · exact h
    · exact thermometer_shiftIn (fun _ => rfl) h
  | perCycle => exact thermometer_shiftIn (by simp +contextual) h

/-- In a thermometer code the top stage is set only if every stage is. -/
theorem all_of_rampTop {r : List Bool} (h : Safety.Thermometer r) (ht : rampTop r = true) :
    ∀ b ∈ r, b = true := by
  rcases List.eq_nil_or_concat r with rfl | ⟨l, b, rfl⟩
  · simp
  · simp only [rampTop, List.concat_eq_append, List.getLastD_concat] at ht
    intro a ha
    simp only [List.concat_eq_append, List.mem_append, List.mem_singleton] at ha
    rcases ha with ha | rfl
    · rw [List.concat_eq_append] at h
      exact (List.pairwise_append.1 h).2.2 a ha b (by simp) ht
    · exact ht

/-- The gate never closes (R40 (b), R154). -/
theorem rampTop_rampNext (m : RampAdvance) (a : Bool) {r : List Bool} (h : Safety.Thermometer r)
    (ht : rampTop r = true) : rampTop (rampNext m a r) = true := by
  have hall := all_of_rampTop h ht
  have hnext : ∀ b ∈ rampNext m a r, b = true := by
    have key : ∀ c, (r = [] ∨ c = true) → ∀ b ∈ shiftIn c r, b = true := by
      intro c hc b hb
      rcases hc with rfl | rfl
      · simp [shiftIn] at hb
      · rcases List.mem_cons.1 (List.dropLast_subset _ hb) with rfl | hb
        · rfl
        · exact hall b hb
    cases m with
    | onAccept => cases a with
      | false => exact hall
      | true => exact key _ (.inr rfl)
    | perCycle =>
      refine key _ ?_
      cases r with
      | nil => exact .inl rfl
      | cons c r => exact .inr (by simp [hall c (by simp)])
  have hlen : (rampNext m a r).length = r.length := length_rampNext m a r
  have hne : rampNext m a r ≠ [] := by
    intro h0
    rw [h0] at hlen
    have : r = [] := List.eq_nil_of_length_eq_zero hlen.symm
    simp [this, rampTop] at ht
  rw [rampTop, List.getLastD_eq_getLast?, List.getLast?_eq_some_getLast hne]
  exact hnext _ (List.getLast_mem hne)

end Sys2Proof.Machine
end

