-- ==== Sys2Proof/Laws/Operands.lean ====
section
/-! SUPPORT. The operand computations as natural numbers modulo `2^n`, and the chains by index. -/

namespace Sys2Proof.Machine

@[simp] theorem eofWord_toNat (n : Nat) : (eofWord n).toNat = 2 ^ n - 1 := by
  simp [eofWord]

theorem accumulate_toNat {n : Nat} (a : Word n) (d : BitVec 4) :
    (accumulate a d).toNat = (a.toNat * 10 + d.toNat) % 2 ^ n := by
  simp only [accumulate, radix, BitVec.toNat_add, BitVec.toNat_mul, BitVec.toNat_setWidth, BitVec.toNat_ofNat]
  simp [Nat.add_mod, Nat.mul_mod]

theorem windowSum_toNat {n : Nat} (x : Word n) (d : List (Word n)) :
    (windowSum x d).toNat = (x.toNat + (d.map BitVec.toNat).sum) % 2 ^ n := by
  unfold windowSum
  induction d generalizing x with
  | nil => simp [Nat.mod_eq_of_lt x.isLt]
  | cons y d ih =>
    simp only [List.foldl_cons, ih, List.map_cons, List.sum_cons, BitVec.toNat_add]
    rw [Nat.mod_add_mod]
    congr 1
    omega

theorem countNext_toNat {n : Nat} (gate : Bool) (sum prev : Word n) (c : Count) :
    (countNext gate sum prev c).toNat =
      if gate = true ∧ prev.toNat < sum.toNat then (c.toNat + 1) % 2 ^ 32 else c.toNat := by
  unfold countNext BitVec.ult
  simp only [Bool.and_eq_true, decide_eq_true_eq]
  split <;> simp

theorem shiftIn_eq_take {α : Type} (x : α) (l : List α) : shiftIn x l = (x :: l).take l.length := by
  simp [shiftIn, List.dropLast_eq_take]

theorem getElem?_shiftIn {α : Type} (x : α) (l : List α) (i : Nat) (h : i < l.length) :
    (shiftIn x l)[i]? = if i = 0 then some x else l[i - 1]? := by
  rw [shiftIn_eq_take, List.getElem?_take, if_pos h]
  cases i <;> simp

/-- The gate is register `r[W-1]` (R142). -/
theorem rampTop_iff {r : List Bool} {w : Nat} (hl : r.length = w) :
    rampTop r = true ↔ r[w - 1]? = some true := by
  subst hl
  rw [rampTop, List.getLastD_eq_getLast?, List.getLast?_eq_getElem?]
  cases r[r.length - 1]? <;> simp

/-- On an accepted sample the two readings of the ramp do the same (R144, R158). -/
theorem Window.accept_mode {n : Nat} (v : Window n) (x : Word n) (m m' : RampAdvance) :
    v.accept m x = v.accept m' x := by
  simp [Window.accept, rampNext_true]

/-- Under the default reading a cycle without a sample changes nothing (R148). -/
theorem Window.rest_onAccept {n : Nat} (v : Window n) : v.rest .onAccept = v := by
  cases v
  rfl

end Sys2Proof.Machine
end

