-- ==== Sys2Proof/Laws/Ops.lean ====
section
/-! SUPPORT. What each shared operation does, once: cite these instead of unfolding it. -/

namespace Sys2Proof.Machine

/-! ### Admissible states -/

theorem check_eq_none_iff (s : State) :
    s.check = none ↔ s.configOk = true ∧ readsInReady s.cfg.ready = false ∧ s.dec.reachable = true := by
  unfold State.check
  cases s.configOk <;> cases readsInReady s.cfg.ready <;> cases s.dec.reachable <;> simp

theorem configOk_iff (s : State) :
    s.configOk = true ↔
      4 ≤ s.cfg.n ∧ (∀ v ∈ s.windows, v.wellFormed = true) ∧ wireInRange s.windows.length s.cfg.ready = true := by
  simp [State.configOk, and_assoc]

theorem Window.wellFormed_iff {n : Nat} (v : Window n) :
    v.wellFormed = true ↔ 1 ≤ v.w ∧ v.d.length = v.w - 1 ∧ v.r.length = v.w := by
  simp [Window.wellFormed, and_assoc]

/-- `check` reads the configuration, the windows and the Decoder's pair of flags alone. -/
theorem check_congr {s : State} {c : Decoder s.cfg.n} {vs : List (Window s.cfg.n)}
    {rows : List (HostRow s.cfg.n)} {t j : Nat} (h : s.check = none) (hc : c.reachable = true)
    (hl : vs.length = s.windows.length) (hv : ∀ v ∈ vs, v.wellFormed = true) :
    (State.mk s.cfg c vs rows t j).check = none := by
  obtain ⟨hcfg, hr, -⟩ := (check_eq_none_iff s).1 h
  obtain ⟨hn, -, hw⟩ := (configOk_iff s).1 hcfg
  exact (check_eq_none_iff _).2 ⟨(configOk_iff _).2 ⟨hn, hv, by simpa [hl] using hw⟩, hr, hc⟩

/-- A Decoder that is ready is `Parsing` (R101). -/
theorem st_of_inReady {s : State} (h : s.inReady = true) : s.dec.st = .parsing := by
  simp only [State.inReady, Bool.and_eq_true, decide_eq_true_eq] at h
  exact h.1

theorem eofTransition_of_ne {st : DecoderState} (h : st ≠ .emitEOF) (x : Bool) (w : DecoderState) :
    eofTransition st x w = w := by
  simp [eofTransition, h]

/-- In an admissible state the spec's `st` cases are the only ones (R39). -/
theorem outValid_of_emitEOF {s : State} (h : s.check = none) (hs : s.dec.st = .emitEOF) :
    s.dec.outValid = true := by
  have := ((check_eq_none_iff s).1 h).2.2
  simpa [Decoder.reachable, hs] using this

theorem outValid_of_finished {s : State} (h : s.check = none) (hs : s.dec.st = .finished) :
    s.dec.outValid = false := by
  have := ((check_eq_none_iff s).1 h).2.2
  simpa [Decoder.reachable, hs] using this

/-! ### The shared operations -/

theorem checked_of_admissible {s : State} (h : s.check = none) (r : Host.Outcome State Fault Refusal) :
    checked s r = r := by
  simp [checked, h]

theorem checked_of_refused {s : State} {why : Refusal} (h : s.check = some why)
    (r : Host.Outcome State Fault Refusal) : checked s r = .refused why := by
  simp [checked, h]

theorem holdCycle_eq {s : State} (h : s.check = none) :
    holdCycle s = .next { s with dec := s.dec.commit s.egReady false s.dec.acc s.dec.outData s.dec.st } :=
  checked_of_admissible h _

theorem offeredCycle_eq {s : State} (h : s.check = none) (tr : Bool) (a o : Word s.cfg.n)
    (st : DecoderState) :
    offeredCycle s tr a o st =
      if s.inReady then .next { s with dec := s.dec.commit s.egReady tr a o st } else holdCycle s := by
  simp only [offeredCycle, checked_of_admissible h]

theorem windowCycle_eq {s : State} (h : s.check = none) {k : Nat} {v : Window s.cfg.n}
    (hk : s.windows[k]? = some v) (f : Window s.cfg.n → Window s.cfg.n) :
    windowCycle s k f = .next { s with windows := s.windows.set k (f v) } := by
  simp [windowCycle, checked_of_admissible h, hk]

theorem windowCycle_none {s : State} (h : s.check = none) {k : Nat} (hk : s.windows[k]? = none)
    (f : Window s.cfg.n → Window s.cfg.n) : windowCycle s k f = .refused (.noSuchInstance k) := by
  simp [windowCycle, checked_of_admissible h, hk]

/-! ### What a commit keeps -/

theorem Window.accept_wellFormed {n : Nat} {v : Window n} (h : v.wellFormed = true) (m : RampAdvance)
    (x : Word n) : (v.accept m x).wellFormed = true := by
  rw [Window.wellFormed_iff] at h ⊢
  simpa using h

theorem Window.rest_wellFormed {n : Nat} {v : Window n} (h : v.wellFormed = true) (m : RampAdvance) :
    (v.rest m).wellFormed = true := by
  rw [Window.wellFormed_iff] at h ⊢
  simpa using h

theorem commit_hold_reachable {n : Nat} {c : Decoder n} (h : c.reachable = true) (er : Bool) (a o : Word n) :
    (c.commit er false a o c.st).reachable = true := by
  rcases c with ⟨st, acc, ov, od⟩
  cases st <;> cases ov <;> cases er <;>
    simp_all [Decoder.reachable, Decoder.commit, eofTransition, outValidNext]

theorem commit_parsing_reachable {n : Nat} {c : Decoder n} (h : c.st = .parsing) (er tr : Bool)
    (a o : Word n) : (c.commit er tr a o .parsing).reachable = true := by
  simp [Decoder.reachable, Decoder.commit, eofTransition, h]

theorem commit_sent_reachable {n : Nat} {c : Decoder n} (h : c.st = .parsing) (er : Bool) (a o : Word n) :
    (c.commit er true a o .emitEOF).reachable = true := by
  simp [Decoder.reachable, Decoder.commit, eofTransition, outValidNext, h]

end Sys2Proof.Machine
end

