-- ==== Sys2Proof/Laws/PerInstr.lean ====
section
/-! SUPPORT. Statements made of every operation as syntax, one lemma per constructor. -/

/-- The encoding of a well-formed operation fits the width of its format (R70). -/
def Sys2Proof.Laws.EncodingFits.Statement (i : Sys2Proof.Instr) : Prop :=
  ∀ n m, i.wellFormed n m = true → (Sys2Proof.encode i).bits < 2 ^ (Sys2Proof.encode i).fmt.width n

namespace Sys2Proof.Laws.EncodingFits

theorem noxfer : Statement .noxfer := fun _ _ _ => by simp [encode, Format.width]

theorem sent : Statement .sent := fun _ _ _ => by simp [encode, Format.width, sentinelByte]

theorem lf : Statement .lf := fun _ _ _ => by simp [encode, Format.width, lfByte]

theorem digit (d : BitVec 4) : Statement (.digit d) := fun _ _ h => by
  simp only [Instr.wellFormed, decide_eq_true_eq] at h
  simp only [encode, Format.width, zeroByte]
  show 48 + d.toNat < 256
  omega

theorem other (b : Byte) : Statement (.other b) := fun _ _ _ => b.isLt

theorem sample (k x : Nat) : Statement (.sample k x) := fun n _ h => by
  simp only [Instr.wellFormed, Bool.and_eq_true, decide_eq_true_eq] at h
  simp only [encode, Format.width, Nat.pow_succ]
  omega

theorem idle (k : Nat) : Statement (.idle k) := fun _ _ _ => Nat.two_pow_pos _

end Sys2Proof.Laws.EncodingFits
end

