-- ==== Sys2Proof/Laws/Step.lean ====
section
/-! SUPPORT. What one step does, said once: `step_eq`. Every claim about `step` can start from it. -/

namespace Sys2Proof.Machine

/-- The Decoder after this cycle. -/
def State.cycleDecoder (s : State) : Decoder s.cfg.n :=
  if s.inXfer then
    match cls s.inData with
    | .sent => s.dec.commit s.egReady true s.dec.acc (eofWord s.cfg.n) .emitEOF
    | .lf => s.dec.commit s.egReady true 0 s.dec.acc s.dec.st
    | .digit d => s.dec.commit s.egReady false (accumulate s.dec.acc d) s.dec.outData s.dec.st
    | .other =>
      match s.cfg.nondigit with
      | .draw => s.dec.commit s.egReady false (Config.nondigitDraw s.cfg.n s.draws) s.dec.outData s.dec.st
      | .wrap => s.dec.commit s.egReady false (foldByte s.dec.acc s.inData) s.dec.outData s.dec.st
  else s.dec.commit s.egReady false s.dec.acc s.dec.outData s.dec.st

/-- The free accumulator values taken after this cycle. -/
def State.cycleDraws (s : State) : Nat :=
  if s.inXfer = true ∧ cls s.inData = .other ∧ s.cfg.nondigit = .draw then s.draws + 1 else s.draws

/-- Instance `k` after this cycle. -/
def State.cycleWindow (s : State) (k : Nat) (v : Window s.cfg.n) : Window s.cfg.n :=
  if (s.windowIn k v.feed).valid then v.accept s.cfg.ramp (s.windowIn k v.feed).data else v.rest s.cfg.ramp

/-- The instances numbered from `k` after this cycle. -/
def State.cycleWindowsFrom (s : State) : Nat → List (Window s.cfg.n) → List (Window s.cfg.n)
  | _, [] => []
  | k, v :: vs => s.cycleWindow k v :: s.cycleWindowsFrom (k + 1) vs

@[simp] theorem State.length_cycleWindowsFrom (s : State) (k : Nat) (vs : List (Window s.cfg.n)) :
    (s.cycleWindowsFrom k vs).length = vs.length := by
  induction vs generalizing k with
  | nil => rfl
  | cons v vs ih => simp [State.cycleWindowsFrom, ih]

theorem State.getElem?_cycleWindowsFrom (s : State) (k j : Nat) (vs : List (Window s.cfg.n)) :
    (s.cycleWindowsFrom k vs)[j]? = vs[j]?.map (s.cycleWindow (k + j)) := by
  induction vs generalizing k j with
  | nil => simp [State.cycleWindowsFrom]
  | cons v vs ih =>
    cases j with
    | zero => simp [State.cycleWindowsFrom]
    | succ j => simp [State.cycleWindowsFrom, ih, Nat.add_assoc, Nat.add_comm 1 j]

theorem State.cycleWindow_wellFormed (s : State) (k : Nat) {v : Window s.cfg.n} (h : v.wellFormed = true) :
    (s.cycleWindow k v).wellFormed = true := by
  unfold State.cycleWindow
  split
  · exact Window.accept_wellFormed h _ _
  · exact Window.rest_wellFormed h _

theorem State.cycleWindowsFrom_wellFormed (s : State) {vs : List (Window s.cfg.n)}
    (h : ∀ v ∈ vs, v.wellFormed = true) (k : Nat) : ∀ v ∈ s.cycleWindowsFrom k vs, v.wellFormed = true := by
  intro v hv
  obtain ⟨j, hj⟩ := List.mem_iff_getElem?.1 hv
  rw [State.getElem?_cycleWindowsFrom, Option.map_eq_some_iff] at hj
  obtain ⟨u, hu, rfl⟩ := hj
  exact s.cycleWindow_wellFormed _ (h u (List.mem_of_getElem? hu))

theorem State.cycleDecoder_reachable {s : State} (h : s.check = none) : s.cycleDecoder.reachable = true := by
  have hr := ((check_eq_none_iff s).1 h).2.2
  unfold State.cycleDecoder
  split
  · rename_i hx
    have hp : s.dec.st = .parsing := st_of_inReady (by simp only [State.inXfer, Bool.and_eq_true] at hx; exact hx.1)
    split
    · exact commit_sent_reachable hp _ _ _
    · rw [hp]; exact commit_parsing_reachable hp _ _ _ _
    · rw [hp]; exact commit_parsing_reachable hp _ _ _ _
    · split <;> (rw [hp]; exact commit_parsing_reachable hp _ _ _ _)
  · exact commit_hold_reachable hr _ _ _

/-- The Decoder's operation of the cycle does what `cycleDecoder` says. -/
theorem exec_decoderOp {s : State} (h : s.check = none) :
    exec s.decoderOp s = .next { s with dec := s.cycleDecoder, draws := s.cycleDraws } := by
  by_cases hx : s.inXfer = true
  · have hr : s.inReady = true := by simp only [State.inXfer, Bool.and_eq_true] at hx; exact hx.1
    cases hc : cls s.inData with
    | sent => simp [State.decoderOp, decodeCycle, decodeByte, hx, hc, exec, execSent, offeredCycle_eq h, hr,
        State.cycleDecoder, State.cycleDraws]
    | lf => simp [State.decoderOp, decodeCycle, decodeByte, hx, hc, exec, execLf, offeredCycle_eq h, hr,
        State.cycleDecoder, State.cycleDraws]
    | digit d => simp [State.decoderOp, decodeCycle, decodeByte, hx, hc, exec, execDigit, offeredCycle_eq h, hr,
        State.cycleDecoder, State.cycleDraws]
    | other =>
      cases hm : s.cfg.nondigit <;>
        simp [State.decoderOp, decodeCycle, decodeByte, hx, hc, exec, execOther, otherDraw, offeredCycle_eq h, hr,
          hm, checked_of_admissible h, State.cycleDecoder, State.cycleDraws]
  · simp [State.decoderOp, decodeCycle, hx, exec, execNoxfer, holdCycle_eq h, State.cycleDecoder,
      State.cycleDraws]

/-- A WindowCounter's operation of the cycle `s`, run on any admissible state of the same machine. -/
theorem exec_windowOp (s : State) {c : Decoder s.cfg.n} {vs : List (Window s.cfg.n)} {j k : Nat}
    {v : Window s.cfg.n} (h : ({ s with dec := c, windows := vs, draws := j } : State).check = none)
    (hk : vs[k]? = some v) :
    exec (s.windowOp k v.feed) { s with dec := c, windows := vs, draws := j } =
      .next { s with dec := c, windows := vs.set k (s.cycleWindow k v), draws := j } := by
  unfold State.windowOp State.cycleWindow decodeSample
  split
  · simp only [exec, execSample]
    rw [windowCycle_eq h (v := v) hk]
    simp
  · simp only [exec, execIdle]
    rw [windowCycle_eq h (v := v) hk]

/-- The instances' operations of the cycle `s`, run after those of the instances before them. -/
theorem runOps_windowOpsFrom {s : State} (h : s.check = none) {c : Decoder s.cfg.n} {j : Nat}
    (hc : c.reachable = true) (done todo : List (Window s.cfg.n))
    (hl : (done ++ todo).length = s.windows.length) (hw : ∀ v ∈ done ++ todo, v.wellFormed = true) :
    runOps (s.windowOpsFrom done.length todo) { s with dec := c, windows := done ++ todo, draws := j } =
      .next { s with dec := c, windows := done ++ s.cycleWindowsFrom done.length todo, draws := j } := by
  induction todo generalizing done with
  | nil => simp [State.windowOpsFrom, State.cycleWindowsFrom, runOps]
  | cons v vs ih =>
    have hk : (done ++ v :: vs)[done.length]? = some v := by simp
    have hset : (done ++ v :: vs).set done.length (s.cycleWindow done.length v) =
        (done ++ [s.cycleWindow done.length v]) ++ vs := by simp
    simp only [State.windowOpsFrom, runOps]
    rw [exec_windowOp s (check_congr h hc hl hw) hk, hset]
    have hv : (s.cycleWindow done.length v).wellFormed = true :=
      s.cycleWindow_wellFormed _ (hw v (by simp))
    have := ih (done ++ [s.cycleWindow done.length v]) (by simpa using hl) (by
      intro u hu
      simp only [List.append_assoc, List.mem_append, List.mem_cons, List.not_mem_nil, or_false] at hu
      rcases hu with hu | rfl | hu
      · exact hw u (by simp [hu])
      · exact hv
      · exact hw u (by simp [hu]))
    simpa [State.cycleWindowsFrom] using this

/-- The state after this cycle. -/
abbrev State.after (s : State) : State :=
  { s with
    dec := s.cycleDecoder
    windows := s.cycleWindowsFrom 0 s.windows
    schedule := s.schedule.drop 1
    cycle := s.cycle + 1
    draws := s.cycleDraws }

/-- ONE STEP of an admissible state: every register of every instance takes its next value, the clock
ticks (R56 to R58, R113). -/
theorem step_eq {s : State} (h : s.check = none) : step s = .next s.after := by
  have hc := State.cycleDecoder_reachable h
  have hw := ((configOk_iff s).1 ((check_eq_none_iff s).1 h).1).2.1
  have := runOps_windowOpsFrom h (j := s.cycleDraws) hc [] s.windows rfl (by simpa using hw)
  simp only [List.nil_append, List.length_nil] at this
  simp only [step, wholeCycle, State.cycleOps, runOps, exec_decoderOp h]
  rw [this]

/-- The state after a step of an admissible state is admissible. -/
theorem check_step {s t : State} (h : s.check = none) (ht : step s = .next t) : t.check = none := by
  rw [step_eq h] at ht
  cases ht
  have hw := ((configOk_iff s).1 ((check_eq_none_iff s).1 h).1).2.1
  exact check_congr h (State.cycleDecoder_reachable h) (by simp) (s.cycleWindowsFrom_wellFormed hw 0)

/-- A refused state is refused by its first operation, whatever it is. -/
theorem step_refused {s : State} {why : Refusal} (h : s.check = some why) : step s = .refused why := by
  have hold : holdCycle s = .refused why := checked_of_refused h _
  have off : ∀ tr a o st, offeredCycle s tr a o st = .refused why := by
    intro tr a o st
    simp only [offeredCycle, checked_of_refused h, hold, ite_self]
  have hexec : exec s.decoderOp s = .refused why := by
    unfold State.decoderOp decodeCycle decodeByte
    split
    · split
      · exact off _ _ _ _
      · exact off _ _ _ _
      · exact off _ _ _ _
      · simp only [exec, execOther, otherDraw, checked_of_refused h, hold, off, ite_self]
        split <;> rfl
    · exact hold
  simp only [step, wholeCycle, State.cycleOps, runOps, hexec]

end Sys2Proof.Machine
end

