-- ==== Sys2Proof/Tests/Slice0.lean ====
section
/-! SUPPORT. The model's own tests. Expected values are those of spec/95_test_vectors.md (the vector is named
at each test) or are computed by hand from the rule named. The last section shows, for each statement with
hypotheses, a state and operands that meet them. -/

namespace Sys2Proof.Tests

open Sys2Proof.Machine Sys2Proof.Safety

/-! ### Helpers -/

def params (n : Nat) (nondigit : NondigitMode) (ramp : RampAdvance) : Params :=
  { n := n, nondigit := nondigit, ramp := ramp, ready := .hostReady }

/-- A machine of width `n` with the given Decoder registers, one window and one host row. -/
def machine (n : Nat) (nondigit : NondigitMode) (ramp : RampAdvance) (c : Decoder n) (v : Window n)
    (inValid : Bool) (inData : Byte) (egReady : Bool) : State :=
  { cfg := params n nondigit ramp
    dec := c
    windows := [v]
    schedule := [{ inValid := inValid, inData := inData, egReady := egReady, windows := [⟨false, 0⟩] }]
    cycle := 0
    draws := 0 }

/-- A Decoder test: one byte offered (or none), at `W = 1`. -/
def decoding (n : Nat) (mode : NondigitMode) (st : DecoderState) (acc : Nat) (ov : Bool) (od : Nat)
    (inValid : Bool) (b : Byte) (egReady : Bool) : State :=
  machine n mode .onAccept ⟨st, BitVec.ofNat n acc, ov, BitVec.ofNat n od⟩ (Window.reset n 1 .host) inValid b egReady

/-- A WindowCounter of width `n` and size `w` with the given registers. -/
def window (n w : Nat) (feed : Feed) (d : List Nat) (r : List Bool) (prev count : Nat) : Window n :=
  { w := w, feed := feed, d := d.map (BitVec.ofNat n), r := r, prev := BitVec.ofNat n prev
    count := BitVec.ofNat 32 count }

/-- A WindowCounter test. -/
def counting (n : Nat) (ramp : RampAdvance) (v : Window n) : State :=
  machine n .draw ramp (Decoder.reset n) v false 0 true

def nextState : Host.Outcome State Fault Refusal → Option State
  | .next s => some s
  | .fault _ => none
  | .refused _ => none

def refusal : Host.Outcome State Fault Refusal → Option Refusal
  | .next _ => none
  | .fault _ => none
  | .refused why => some why

/-- `st`, `acc`, `out_valid`, `out_data`. -/
def decoderOf (r : Host.Outcome State Fault Refusal) : Option (DecoderState × Nat × Bool × Nat) :=
  (nextState r).map fun s => (s.dec.st, s.dec.acc.toNat, s.dec.outValid, s.dec.outData.toNat)

/-- `d`, `r`, `prev`, `count` of instance 0. -/
def windowOf (r : Host.Outcome State Fault Refusal) : Option (List Nat × List Bool × Nat × Nat) :=
  (nextState r).bind fun s =>
    s.windows[0]?.map fun v => (v.d.map BitVec.toNat, v.r, v.prev.toNat, v.count.toNat)

/-! ### WellFormed: an ill-formed term for each check -/

theorem test_wellFormed_refuses_digit_ten : Instr.wellFormed 32 2 (.digit 10) = false := by decide
theorem test_wellFormed_refuses_other_sentinel : Instr.wellFormed 32 2 (.other 0x00) = false := by decide
theorem test_wellFormed_refuses_other_lf : Instr.wellFormed 32 2 (.other 0x0A) = false := by decide
theorem test_wellFormed_refuses_other_digit : Instr.wellFormed 32 2 (.other 0x39) = false := by decide
theorem test_wellFormed_refuses_wide_sample : Instr.wellFormed 8 2 (.sample 0 256) = false := by decide
theorem test_wellFormed_refuses_sample_instance : Instr.wellFormed 8 2 (.sample 2 0) = false := by decide
theorem test_wellFormed_refuses_idle_instance : Instr.wellFormed 8 2 (.idle 2) = false := by decide
theorem test_wellFormed_accepts_edges :
    Instr.wellFormed 8 2 (.digit 9) = true ∧ Instr.wellFormed 8 2 (.other 0x3A) = true ∧
      Instr.wellFormed 8 2 (.other 0x2F) = true ∧ Instr.wellFormed 8 2 (.sample 1 255) = true ∧
      Instr.wellFormed 8 2 .noxfer = true ∧ Instr.wellFormed 8 2 .sent = true ∧
      Instr.wellFormed 8 2 .lf = true ∧ Instr.wellFormed 8 2 (.idle 1) = true := by decide

/-! ### Decode: words written out from R71, R81 -/

theorem test_decode_noxfer : decode 32 ⟨.dc, 0b0⟩ = .ok .noxfer := by decide
theorem test_decode_sent : decode 32 ⟨.db, 0b00000000⟩ = .ok .sent := by decide
theorem test_decode_lf : decode 32 ⟨.db, 0b00001010⟩ = .ok .lf := by decide
theorem test_decode_digit : decode 32 ⟨.db, 0b00110111⟩ = .ok (.digit 7) := by decide
theorem test_decode_other : decode 32 ⟨.db, 0b00111010⟩ = .ok (.other 0x3A) := by decide
theorem test_decode_sample : decode 8 ⟨.ws 1, 0b110010111⟩ = .ok (.sample 1 0b11001011) := by decide
theorem test_decode_idle : decode 8 ⟨.ws 1, 0b110010110⟩ = .ok (.idle 1) := by decide
theorem test_decode_transfer_cycle_needs_byte : decode 32 ⟨.dc, 0b1⟩ = .error .byteSelects := by decide
theorem test_decode_too_wide : decode 32 ⟨.db, 256⟩ = .error .tooWide := by decide
theorem test_decode_stream :
    decodeStream [0x31, 0x0A] = .ok (.digit 1, [0x0A]) ∧ decodeStream [] = .error .noByte := by decide

/-- R73: the edges of the ranges of `OTHER`. -/
theorem test_other_range_edges :
    ([0x01, 0x09, 0x0B, 0x2F, 0x3A, 0xFF].map cls) = List.replicate 6 .other := by decide

/-- Log 12. -/
theorem test_table_word_above_a_byte_is_a_sample : decodeTableWord 33 399 = some (.sample 0 199) := by decide

/-! ### Reset and fetch -/

/-- R200, R202: the reset state, its `in_ready` under a ready host, and its outputs. -/
theorem test_reset :
    (State.reset.dec.st, State.reset.dec.acc.toNat, State.reset.dec.outValid) = (.parsing, 0, false) ∧
      State.reset.windows.map Window.w = [1, 3] ∧ (State.reset.withFetchWord 8 0x31).inReady = true ∧
      State.reset.windowValid 1 = some false ∧ State.reset.windowCount 1 = some 0 := by decide

/-- P1, cycle 0: the first step after reset takes the byte 0x31. -/
theorem test_step_takes_first_byte :
    decoderOf (step (State.reset.withFetchWord 8 0x31)) = some (.parsing, 1, false, 0) := by decide

/-- R30, R75, R147: a step gives each host-fed instance the sample on its own ports: 199 to instance 0 (`W = 1`),
none to instance 1. -/
theorem test_step_samples_own_port :
    ((nextState (step (State.reset.withFetchWord 33 399))).map fun s =>
      s.windows.map fun v => (v.r, v.prev.toNat)) = some [([true], 199), ([false, false, false], 0)] := by decide

/-- R37. -/
theorem test_state_codes :
    DecoderState.code .parsing = 0 ∧ DecoderState.code .emitEOF = 1 ∧ DecoderState.code .finished = 2 := by decide

/-! ### The handshake arbiter -/

/-- V-H1 to V-H7: `in_ready` and `eg_xfer`. -/
theorem test_handshake_table :
    ([(.parsing, false, false), (.parsing, false, true), (.parsing, true, false), (.parsing, true, true),
        (.emitEOF, true, false), (.emitEOF, true, true), (.finished, false, true)].map
      fun (p : DecoderState × Bool × Bool) =>
        let s := decoding 32 .draw p.1 0 p.2.1 5 true 0x37 p.2.2
        (s.inReady, s.egXfer)) =
      [(true, false), (true, false), (false, false), (true, true), (false, false), (false, true),
        (false, false)] := by decide

/-! ### Decoder operations -/

/-- V-D4. -/
theorem test_digit_wraps :
    decoderOf (step (decoding 32 .draw .parsing 429496729 false 0 true 0x36 true)) =
      some (.parsing, 0, false, 0) := by decide

/-- V-D6, `N = 4`. -/
theorem test_digit_narrow :
    decoderOf (step (decoding 4 .draw .parsing 9 false 0 true 0x39 true)) = some (.parsing, 3, false, 0) := by
  decide

/-- V-D7: a digit is taken as the pending word transfers. -/
theorem test_digit_while_transferring :
    decoderOf (step (decoding 32 .draw .parsing 2 true 199 true 0x30 true)) = some (.parsing, 20, false, 199) := by
  decide

/-- V-D8. -/
theorem test_lf_emits :
    decoderOf (step (decoding 32 .draw .parsing 199 false 0 true 0x0A true)) = some (.parsing, 0, true, 199) := by
  decide

/-- V-D10. -/
theorem test_lf_while_transferring :
    decoderOf (step (decoding 32 .draw .parsing 7 true 5 true 0x0A true)) = some (.parsing, 0, true, 7) := by decide

/-- V-D12: `acc` is held. -/
theorem test_sent_drops_open_line :
    decoderOf (step (decoding 32 .draw .parsing 12 false 0 true 0x00 true)) =
      some (.emitEOF, 12, true, 0xFFFFFFFF) := by decide

/-- V-D13. -/
theorem test_sent_while_transferring :
    decoderOf (step (decoding 32 .draw .parsing 0 true 200 true 0x00 true)) =
      some (.emitEOF, 0, true, 0xFFFFFFFF) := by decide

/-- V-D14 under `wrap`. -/
theorem test_other_wraps :
    decoderOf (step (decoding 32 .wrap .parsing 1 false 0 true 0x0D true)) =
      some (.parsing, 0xFFFFFFE7, false, 0) := by decide

/-- V-D14 under `draw`: every register but `acc`. -/
theorem test_other_draws :
    ((nextState (step (decoding 32 .draw .parsing 1 false 0 true 0x0D true))).map fun s =>
      (s.dec.st, s.dec.outValid, s.dec.outData.toNat, s.draws)) = some (.parsing, false, 0, 1) := by decide

/-- V-D18: a stall holds every register. -/
theorem test_noxfer_stall :
    decoderOf (step (decoding 32 .draw .parsing 0 true 5 true 0x37 false)) = some (.parsing, 0, true, 5) := by
  decide

/-- V-D22. -/
theorem test_noxfer_eof_transition :
    decoderOf (step (decoding 32 .draw .emitEOF 0 true 0xFFFFFFFF false 0 true)) =
      some (.finished, 0, false, 0xFFFFFFFF) := by decide

/-! ### WindowCounter operations -/

/-- V-W8: the counter wraps. -/
theorem test_sample_counter_wraps :
    windowOf (exec (.sample 0 6) (counting 32 .onAccept (window 32 1 .host [] [true] 5 0xFFFFFFFF))) =
      some ([], [true], 6, 0) := by decide

/-- V-W9, last sample, `N = 8`: the sum wraps, and the chain shifts. -/
theorem test_sample_sum_wraps :
    windowOf (exec (.sample 0 250) (counting 8 .onAccept (window 8 3 .host [10, 11] [true, true, true] 30 0))) =
      some ([250, 10], [true, true, true], 15, 0) := by decide

/-- V-W7. -/
theorem test_idle_holds :
    windowOf (exec (.idle 0) (counting 32 .onAccept (window 32 3 .host [4, 3] [true, true, true] 9 1))) =
      some ([4, 3], [true, true, true], 9, 1) := by decide

/-- V-W12 under `per_cycle`, the first idle cycle: the ramp goes on. -/
theorem test_idle_per_cycle :
    windowOf (exec (.idle 0) (counting 32 .perCycle (window 32 3 .host [1, 0] [true, false, false] 1 0))) =
      some ([1, 0], [true, true, false], 1, 0) := by decide

/-- P4, cycles 6 and 7: the connector passes the word 4 and filters the EOF word. -/
theorem test_connector :
    (decoding 32 .draw .parsing 0 true 4 true 0x00 true).windowOp 0 .connector = .sample 0 4 ∧
      (decoding 32 .draw .emitEOF 0 true 0xFFFFFFFF false 0 true).windowOp 0 .connector = .idle 0 := by decide

/-- E2, sample 4 (log 18): the sum of R141 is 618, as E2 says; the formula of R156 gives 617. -/
theorem test_incremental_formula_differs :
    (windowSum (210 : Word 32) [208, 200]).toNat = 618 ∧ ((607 : Word 32) + 210 - 200).toNat = 617 := by decide

/-! ### Refusals -/

/-- R14: `N = 3`, and `W = 0`. -/
theorem test_ill_formed_refused :
    refusal (step (decoding 3 .draw .parsing 0 false 0 true 0x31 true)) = some .illFormedConfiguration ∧
      refusal (step (counting 8 .onAccept (window 8 0 .host [] [] 0 0))) = some .illFormedConfiguration := by decide

def looped : State :=
  { counting 8 .onAccept (window 8 1 .host [] [false] 0 0) with
    cfg := { params 8 .draw .onAccept with ready := .or (.const true) .inReady } }

/-- R205. -/
theorem test_loop_refused : refusal (step looped) = some .combinationalLoop := by decide

/-- U10. -/
theorem test_unreachable_refused :
    refusal (step (decoding 8 .draw .finished 0 true 0 true 0x31 true)) = some .unreachableState ∧
      refusal (step (decoding 8 .draw .emitEOF 0 false 0 true 0x31 true)) = some .unreachableState := by decide

/-! ### The reference results claims are stated with -/

/-- E1 and E2. -/
theorem test_reference_counts :
    increases (windowSums 32 1 [199, 200, 208, 210, 200, 207, 240, 269, 260, 263]) = 7 ∧
      increases (windowSums 32 3 [199, 200, 208, 210, 200, 207, 240, 269, 260, 263]) = 5 := by decide

/-- P1 and P5. -/
theorem test_reference_stream :
    streamWords 32 0 [0x31, 0x39, 0x39, 0x0A, 0x32, 0x30, 0x30, 0x0A, 0x00] = [199, 200, 0xFFFFFFFF] ∧
      streamBytes [[3, 0, 0], [2, 5, 5]] = [0x33, 0x30, 0x30, 0x0A, 0x32, 0x35, 0x35, 0x0A, 0x00] ∧
      lineValue 8 [3, 0, 0] = 44 := by decide

/-! ### Witnesses: for each statement with hypotheses, operands that meet them -/

/-- A Decoder ready for a byte while a word transfers. -/
def ready : State := decoding 32 .draw .parsing 7 true 5 true 0x39 true
/-- The same under `wrap` at the narrowest width. -/
def readyWrap : State := decoding 4 .wrap .parsing 7 true 5 true 0x39 true
/-- A stalled word. -/
def stalled : State := decoding 32 .draw .parsing 7 true 5 true 0x39 false
/-- The end of a stream. -/
def finished : State := decoding 32 .draw .finished 7 false 5 true 0x39 true
/-- The EOF word pending. -/
def emitting : State := decoding 32 .draw .emitEOF 7 true 5 true 0x39 true
/-- A full window whose next sample above 30 counts and wraps the counter. -/
def full : State := counting 8 .onAccept (window 8 3 .host [10, 10] [true, true, true] 30 0xFFFFFFFF)
/-- A fresh window with arbitrary `d` and `prev`. -/
def fresh (ramp : RampAdvance) (feed : Feed) : State :=
  counting 8 ramp (window 8 3 feed [9, 200] [false, false, false] 77 0)

theorem witness_DecodeOfEncodeIsIdentity :
    Instr.wellFormed 4 1 (.sample 0 15) = true ∧ Instr.wellFormed 4 1 (.digit 9) = true ∧
      Instr.wellFormed 4 1 (.other 0xFF) = true := by decide
theorem witness_EncodeOfDecodeIsIdentity : 31 % 2 = 1 ∧ decode 4 ⟨.ws 2, 31⟩ = .ok (.sample 2 15) := by decide
theorem witness_DecodedOperationsAreWellFormed :
    decode 4 ⟨.db, 255⟩ = .ok (.other 255) ∧ decode 4 ⟨.dc, 0⟩ = .ok .noxfer ∧
      (2 < 3 ∧ decode 4 ⟨.ws 2, 31⟩ = .ok (.sample 2 15)) := by decide
theorem witness_BuiltMachineMeetsTheInvariant :
    4 ≤ (params 4 .wrap .perCycle).n ∧ (∀ p ∈ [(1, Feed.host)], 1 ≤ p.1) ∧
      wireInRange 1 (params 4 .wrap .perCycle).ready = true ∧
      readsInReady (params 4 .wrap .perCycle).ready = false := by decide
theorem witness_DigitAccumulates :
    Admissible ready ∧ ready.inReady = true ∧ (0x30 ≤ (0x30 : Byte).toNat ∧ (0x30 : Byte).toNat ≤ 0x39) ∧
      (0x30 ≤ (0x39 : Byte).toNat ∧ (0x39 : Byte).toNat ≤ 0x39) := by decide
theorem witness_LfEmitsTheAccumulator :
    Admissible ready ∧ ready.inReady = true ∧ (0x0A : Byte).toNat = 0x0A := by decide
theorem witness_SentinelEmitsTheEofWord :
    Admissible ready ∧ ready.inReady = true ∧ (0x00 : Byte).toNat = 0x00 := by decide
theorem witness_OtherByteChangesOnlyTheAccumulator :
    (Admissible ready ∧ ready.inReady = true ∧ cls 0x2F = .other ∧ ready.cfg.nondigit = .draw) ∧
      (Admissible readyWrap ∧ readyWrap.inReady = true ∧ cls 0xFF = .other ∧ readyWrap.cfg.nondigit = .wrap) := by
  decide
theorem witness_NoxferHolds :
    Admissible stalled ∧ stalled.decoderOp = .noxfer ∧ Admissible emitting ∧ emitting.egXfer = true := by decide
theorem witness_UntakenByteActsAsNoxfer : stalled.inReady = false ∧ finished.inReady = false := by decide
theorem witness_DecoderOperationsFrame :
    Admissible ready ∧ ready.inReady = true ∧ Admissible stalled ∧ stalled.inReady = false ∧
      Admissible emitting ∧ emitting.egXfer = true := by decide
theorem witness_OutValidEveryCycle : Admissible ready ∧ Admissible stalled := by decide
theorem witness_StateTransitionsEveryCycle :
    (Admissible emitting ∧ emitting.dec.st = .emitEOF ∧ emitting.egXfer = true) ∧
      (let s := decoding 32 .draw .parsing 7 true 5 true 0x00 true
       Admissible s ∧ s.inXfer = true ∧ s.inData.toNat = 0x00) ∧
      Admissible ready := by decide
theorem witness_FinishedIsTerminal : Admissible finished ∧ finished.dec.st = .finished := by decide
theorem witness_BackpressureHoldsTheDecoder :
    Admissible stalled ∧ stalled.dec.outValid = true ∧ stalled.egReady = false := by decide
theorem witness_PendingWordIsNeverOverwritten :
    (Admissible stalled ∧ stalled.dec.outValid = true ∧ stalled.egReady = false) ∧
      (let s := decoding 32 .draw .parsing 7 true 5 true 0x0A true
       Admissible s ∧ s.dec.outValid = true ∧ s.egReady = true ∧ s.trigger = true) ∧
      (Admissible ready ∧ ready.dec.outValid = true ∧ ready.egReady = true ∧ ready.trigger = false) := by decide
theorem witness_WordsAreConserved : Admissible ready ∧ pending ready = [5] := by decide
theorem witness_NoByteIsTakenAfterTheSentinel :
    Admissible emitting ∧ emitting.dec.st ≠ .parsing ∧ Admissible finished ∧ finished.dec.st ≠ .parsing := by decide
theorem witness_AccumulatorLaw :
    Admissible (State.reset.withFetchWord 8 0x31) ∧ (State.reset.withFetchWord 8 0x31).inReady = true ∧
      (State.reset.withFetchWord 8 0x31).dec.acc.toNat = 0 := by decide
theorem witness_RoundTripUnderBackpressure :
    Admissible ready ∧ ∀ b ∈ [(0x30 : Byte), 0x39, 0x0A, 0x00], Plain b := by decide
/-- The machine of `witness_BytesToCountEndToEnd` with the constant 1 on `eg_ready`, as in P4. -/
def constantReady : State :=
  { fresh .onAccept .connector with cfg := { (fresh .onAccept .connector).cfg with ready := .const true } }
theorem readyWhenHostIs_hostReady {s : State} (h : s.cfg.ready = .hostReady) : ReadyWhenHostIs s := by
  intro u hu hr
  simp [State.egReady, hu, h, wireValue, hr]
theorem readyWhenHostIs_const {s : State} (h : s.cfg.ready = .const true) : ReadyWhenHostIs s := by
  intro u hu _
  simp [State.egReady, hu, h, wireValue]
theorem witness_StreamIsDecodedAtFullThroughput :
    (Admissible State.reset ∧ ReadyWhenHostIs State.reset ∧ State.reset.dec = Decoder.reset State.reset.cfg.n) ∧
      (Admissible constantReady ∧ ReadyWhenHostIs constantReady ∧
        constantReady.dec = Decoder.reset constantReady.cfg.n) :=
  ⟨⟨by decide, readyWhenHostIs_hostReady rfl, rfl⟩, ⟨by decide, readyWhenHostIs_const rfl, rfl⟩⟩
theorem witness_SampleUpdatesEveryRegister :
    ∃ v, Admissible full ∧ full.windows[0]? = some v ∧ 255 < 2 ^ full.cfg.n :=
  ⟨_, by decide, rfl, by decide⟩
theorem witness_CounterWrapsToZero :
    ∃ v, Admissible full ∧ full.windows[0]? = some v ∧ 11 < 2 ^ full.cfg.n ∧ v.count.toNat = 2 ^ 32 - 1 ∧
      v.r[v.w - 1]? = some true ∧ v.prev.toNat < (11 + (v.d.map BitVec.toNat).sum) % 2 ^ full.cfg.n :=
  ⟨_, by decide, rfl, by decide, by decide, by decide, by decide⟩
theorem witness_IdleHoldsEveryRegister :
    Admissible full ∧ 0 < full.windows.length ∧ full.cfg.ramp = .onAccept := by decide
theorem witness_IdleAdvancesTheRampPerCycle :
    ∃ v, Admissible (fresh .perCycle .host) ∧ (fresh .perCycle .host).windows[0]? = some v ∧
      (fresh .perCycle .host).cfg.ramp = .perCycle :=
  ⟨_, by decide, rfl, by decide⟩
theorem witness_WindowOperationsFrame : Admissible State.reset ∧ 1 < State.reset.windows.length := by decide
theorem witness_MissingInstanceIsRefused : Admissible State.reset ∧ State.reset.windows.length ≤ 2 := by decide
theorem witness_CountingLaw :
    ∃ v, Admissible (fresh .onAccept .host) ∧ (fresh .onAccept .host).cfg.ramp = .onAccept ∧
      (fresh .onAccept .host).windows[0]? = some v ∧ Fresh v :=
  ⟨_, by decide, by decide, rfl, by decide⟩
theorem witness_RampReadingsAgreeBackToBack :
    ∃ v, Admissible (fresh .onAccept .host) ∧ (fresh .onAccept .host).windows[0]? = some v ∧ Fresh v ∧
      v.w ≤ [1, 2, 3].length :=
  ⟨_, by decide, rfl, by decide, by decide⟩
theorem witness_UndecidedResetValuesAreUnobservable :
    Admissible (fresh .onAccept .host) ∧ (fresh .onAccept .host).cfg.ramp = .onAccept ∧
      (∀ v ∈ (fresh .onAccept .host).windows, Fresh v) ∧
      ∃ u v : Window 8, (fresh .onAccept .host).windows = [v] ∧ u.d ≠ v.d ∧
        u.w = v.w ∧ u.feed = v.feed ∧ u.r = v.r ∧ u.count = v.count ∧ u.d.length = v.d.length :=
  ⟨by decide, by decide, by decide, window 8 3 .host [0, 0] [false, false, false] 0 0, _, rfl, by decide,
    by decide⟩
/-- A machine that differs from `ready` in all but its configuration and its instance, and samples none. -/
def elsewhere : State :=
  { ready with
    dec := ⟨.emitEOF, 1, true, 2⟩
    windows := [Window.reset 32 1 .host, window 32 3 .host [1, 2] [true, true, true] 3 4]
    schedule := [⟨true, 0x0A, false, [⟨false, 9⟩]⟩]
    cycle := 8
    draws := 6 }
/-- Both machines with a sample of 5 on the ports of instance 0. -/
def sampling (s : State) : State :=
  { s with schedule := [⟨true, 0x0A, false, [⟨true, BitVec.ofNat s.cfg.n 5⟩]⟩] }
theorem witness_InstancesStepIndependently :
    (Admissible ready ∧ Admissible elsewhere ∧ ready.windows[0]? = elsewhere.windows[0]? ∧
        (elsewhere.windowIn 0 .host).valid = (ready.windowIn 0 .host).valid ∧ (ready.windowIn 0 .host).valid = false) ∧
      (Admissible (sampling ready) ∧ Admissible (sampling elsewhere) ∧
        ((sampling elsewhere).windowIn 0 .host).valid = ((sampling ready).windowIn 0 .host).valid ∧
        ((sampling ready).windowIn 0 .host).valid = true ∧
        ((sampling elsewhere).windowIn 0 .host).data.toNat = ((sampling ready).windowIn 0 .host).data.toNat) := by
  decide
theorem witness_EveryCycleKeepsTheInvariant :
    Invariant State.reset ∧ Invariant full ∧ full.windowValid 0 = some true := by decide
theorem witness_StepRefusesOnlyInadmissibleStates :
    Admissible ready ∧ looped.check = some .combinationalLoop := by decide
theorem witness_IllFormedConfigurationIsRefused :
    (decoding 3 .draw .parsing 0 false 0 true 0x31 true).cfg.n < 4 ∧
      ∃ v ∈ (counting 8 .onAccept (window 8 0 .host [] [] 0 0)).windows, v.w = 0 :=
  ⟨by decide, _, List.mem_singleton.2 rfl, rfl⟩
theorem witness_CombinationalLoopIsRefused :
    (looped.configOk = true ∧ readsInReady looped.cfg.ready = true) ∧
      (full.configOk = true ∧ readsInReady full.cfg.ready = false) := by decide
theorem witness_StepRunsTheDecodedOperations :
    (∃ v, State.reset.windows[1]? = some v) ∧
      ∃ t u, exec (if ready.inXfer then decodeByte ready.inData else .noxfer) ready = .next t ∧
        runOps (ready.windowOpsFrom 0 ready.windows) t = .next u :=
  ⟨⟨_, rfl⟩, _, _, rfl, rfl⟩
/-- One witness a clause: a sample, none, and no row. -/
theorem witness_HostFedInstancesFollowTheirPorts :
    ((sampling ready).schedule.head?.bind fun row => row.windows[0]?) = some ⟨true, 5⟩ ∧
      (ready.schedule.head?.bind fun row => row.windows[0]?) = some ⟨false, 0⟩ ∧
      (State.reset.schedule.head?.bind fun row => row.windows[0]?) = none := by decide
theorem witness_FetchedSampleRunsNext :
    (Admissible State.reset ∧ (∀ v ∈ State.reset.windows, v.feed = .host) ∧ 0 < State.reset.windows.length ∧
        decodeTableWord 33 (2 ^ 33 - 1) = some (.sample 0 (2 ^ 32 - 1))) ∧
      decodeTableWord 9 0 = some (.idle 0) := by decide
theorem witness_FetchedByteRunsNext :
    Admissible State.reset ∧ State.reset.cfg.ramp = .onAccept ∧ (∀ v ∈ State.reset.windows, v.feed = .host) ∧
      decodeTableWord 8 0x39 = some (.digit 9) ∧ (State.reset.withFetchWord 8 0x39).inReady = true := by decide
theorem witness_UntransferredDataIsIgnored :
    stalled.inXfer = false ∧ (stalled.schedule.map fun row => row.windows[0]?) = [some ⟨false, 0⟩] := by decide
theorem witness_BytesToCountEndToEnd :
    ∃ v,
      (Admissible (fresh .onAccept .connector) ∧ ReadyWhenHostIs (fresh .onAccept .connector) ∧
        (fresh .onAccept .connector).cfg.ramp = .onAccept ∧
        (fresh .onAccept .connector).dec = Decoder.reset (fresh .onAccept .connector).cfg.n ∧
        (fresh .onAccept .connector).windows[0]? = some v ∧ Fresh v ∧ v.feed = .connector) ∧
      (Admissible constantReady ∧ ReadyWhenHostIs constantReady ∧ constantReady.windows[0]? = some v) :=
  ⟨_, ⟨by decide, readyWhenHostIs_hostReady rfl, by decide, rfl, rfl, by decide, by decide⟩,
    by decide, readyWhenHostIs_const rfl, rfl⟩
/-- A run with a pause that reaches `Finished`, for the inner hypothesis (P4's composition). -/
theorem witness_EveryCompletedRunCountsTheLines :
    ∃ v, Admissible constantReady ∧ constantReady.cfg.ramp = .onAccept ∧
      constantReady.dec = Decoder.reset constantReady.cfg.n ∧ constantReady.windows[0]? = some v ∧ Fresh v ∧
      v.feed = .connector ∧
      (hostRun [⟨true, true⟩, ⟨false, true⟩, ⟨true, true⟩, ⟨true, true⟩, ⟨false, true⟩] (streamBytes [[7]])
        constantReady).map (fun out => (out.1, out.2.2.dec.st)) = some ([7, 255], .finished) :=
  ⟨_, by decide, by decide, rfl, rfl, by decide, by decide, by decide⟩

end Sys2Proof.Tests
end

section
/-! PROOFS. The scope (00_scope.md): which machines get no meaning (R14, R187), and that a built machine meets
the invariant. -/

namespace Sys2Proof.Machine

/-! ### Refused states: every operation gives the refusal of `check` (R187) -/

section refused
variable {s : State} {why : Refusal}

theorem holdCycle_refused (h : s.check = some why) : holdCycle s = .refused why :=
  checked_of_refused h _

theorem offeredCycle_refused (h : s.check = some why) (tr : Bool) (a o : Word s.cfg.n) (st : DecoderState) :
    offeredCycle s tr a o st = .refused why := by
  simp only [offeredCycle, checked_of_refused h, holdCycle_refused h, ite_self]

theorem otherDraw_refused (h : s.check = some why) : otherDraw s = .refused why := by
  simp only [otherDraw, checked_of_refused h, holdCycle_refused h, ite_self]

theorem windowCycle_refused (h : s.check = some why) (k : Nat) (f : Window s.cfg.n → Window s.cfg.n) :
    windowCycle s k f = .refused why :=
  checked_of_refused h _

/-- The companion of `step_refused` for a single operation. -/
theorem exec_refused (h : s.check = some why) (i : Instr) : exec i s = .refused why := by
  cases i with
  | noxfer => exact holdCycle_refused h
  | sent => exact offeredCycle_refused h _ _ _ _
  | lf => exact offeredCycle_refused h _ _ _ _
  | digit d => exact offeredCycle_refused h _ _ _ _
  | other b =>
    simp only [exec, execOther]
    split
    · exact otherDraw_refused h
    · exact offeredCycle_refused h _ _ _ _
  | sample k x => exact windowCycle_refused h _ _
  | idle k => exact windowCycle_refused h _ _

end refused

/-! ### Ill-formed configurations (R14) -/

theorem check_of_not_configOk {s : State} (h : ¬ s.configOk = true) :
    s.check = some .illFormedConfiguration := by
  simp [State.check, h]

/-- `N < 4` (D5) or a WindowCounter with `W = 0` (D6) makes the configuration ill formed. -/
theorem not_configOk {s : State} (h : s.cfg.n < 4 ∨ ∃ v ∈ s.windows, v.w = 0) : ¬ s.configOk = true := by
  intro hok
  obtain ⟨hn, hwf, -⟩ := (configOk_iff s).1 hok
  rcases h with hlt | ⟨v, hv, hw⟩
  · omega
  · obtain ⟨hpos, -, -⟩ := (Window.wellFormed_iff v).1 (hwf v hv)
    omega

/-! ### Machines at reset (R200) -/

theorem Window.reset_wellFormed (n : Nat) {w : Nat} (hw : 1 ≤ w) (feed : Feed) :
    (Window.reset n w feed).wellFormed = true :=
  (Window.wellFormed_iff _).2 ⟨hw, List.length_replicate, List.length_replicate⟩

/-- R40 (a) and (c): the ramp is all zeros and nothing has been counted. -/
theorem Window.reset_invariant (n w : Nat) (feed : Feed) : Safety.WindowInvariant (Window.reset n w feed) :=
  ⟨List.pairwise_replicate_of_refl, fun _ => rfl⟩

theorem check_build {cfg : Params} {instances : List (Nat × Feed)} (hn : 4 ≤ cfg.n)
    (hw : ∀ p ∈ instances, 1 ≤ p.1) (hr : wireInRange instances.length cfg.ready = true)
    (hl : readsInReady cfg.ready = false) : (State.build cfg instances).check = none := by
  have hwf : ∀ v ∈ (State.build cfg instances).windows, v.wellFormed = true :=
    List.forall_mem_map.2 fun p hp => Window.reset_wellFormed cfg.n (hw p hp) p.2
  have hok : (State.build cfg instances).configOk = true :=
    (configOk_iff _).2 ⟨hn, hwf, by simpa using hr⟩
  exact (check_eq_none_iff _).2 ⟨hok, hl, rfl⟩

theorem invariant_build {cfg : Params} {instances : List (Nat × Feed)} (hn : 4 ≤ cfg.n)
    (hw : ∀ p ∈ instances, 1 ≤ p.1) (hr : wireInRange instances.length cfg.ready = true)
    (hl : readsInReady cfg.ready = false) : Safety.Invariant (State.build cfg instances) :=
  ⟨check_build hn hw hr hl, List.forall_mem_map.2 fun p _ => Window.reset_invariant cfg.n p.1 p.2⟩

/-! ### The obligations -/

/-- Settles O37: such a configuration fails R14's check, and a failed check refuses the cycle and every
operation. -/
theorem illFormedConfigurationIsRefused : Obligations.IllFormedConfigurationIsRefused := by
  intro s h
  have hc : s.check = some .illFormedConfiguration := check_of_not_configOk (not_configOk h)
  exact ⟨step_refused hc, exec_refused hc⟩

/-- Settles O7: the reference machine is one of the built machines, and every built machine meets the invariant
by `invariant_build`. -/
theorem builtMachineMeetsTheInvariant : Obligations.BuiltMachineMeetsTheInvariant :=
  ⟨invariant_build (cfg := referenceParams) (by decide) (by decide) rfl rfl,
    fun _ _ => invariant_build⟩

end Sys2Proof.Machine
end

section
/-! PROOFS. The state (10_state.md): the reset values, what each operation leaves unchanged (R35, R36), and the
invariant that every cycle keeps (R39, R40). -/

namespace Sys2Proof.Machine

/-! ### The Decoder's frame (R105 to R109, R111, R113) -/

/-- What operation `i` may change in the Decoder and in `draws`: `c` and `j` are their values after it. -/
structure DecoderFrame (s : State) (i : Instr) (c : Decoder s.cfg.n) (j : Nat) : Prop where
  draws : (∀ b, i ≠ .other b) → j = s.draws
  outData : i ≠ .lf ∧ i ≠ .sent → c.outData = s.dec.outData
  acc : i = .noxfer ∨ i = .sent → c.acc = s.dec.acc
  st : i ≠ .sent → c.st = s.dec.st ∨ (s.dec.st = .emitEOF ∧ s.egXfer = true ∧ c.st = .finished)
  untaken : s.inReady = false → c.acc = s.dec.acc ∧ c.outData = s.dec.outData

/-- R111, where the operation itself does not write `st`. -/
theorem eofTransition_self (st : DecoderState) (x : Bool) :
    eofTransition st x st = st ∨ (st = .emitEOF ∧ x = true ∧ eofTransition st x st = .finished) := by
  by_cases h : st = .emitEOF ∧ x = true
  · obtain ⟨hst, hx⟩ := h
    exact .inr ⟨hst, hx, if_pos ⟨hst, hx⟩⟩
  · exact .inl (if_neg h)

section frame
variable {s : State} {i : Instr} {tr : Bool} {a o : Word s.cfg.n} {st : DecoderState} {j : Nat}

/-- Without a transfer the Decoder stays within the frame of every operation (R109). -/
theorem decoderFrame_hold (s : State) (i : Instr) :
    DecoderFrame s i (s.dec.commit s.egReady false s.dec.acc s.dec.outData s.dec.st) s.draws where
  draws _ := rfl
  outData _ := rfl
  acc _ := rfl
  st _ := eofTransition_self s.dec.st s.egXfer
  untaken _ := ⟨rfl, rfl⟩

/-- The commit of a taken byte is within the operation's frame if the values it writes are: R111 does not apply,
since the Decoder is `Parsing`. -/
theorem decoderFrame_taken (hr : s.inReady = true) (hj : (∀ b, i ≠ .other b) → j = s.draws)
    (ho : i ≠ .lf ∧ i ≠ .sent → o = s.dec.outData) (ha : i = .noxfer ∨ i = .sent → a = s.dec.acc)
    (hst : i ≠ .sent → st = s.dec.st) : DecoderFrame s i (s.dec.commit s.egReady tr a o st) j where
  draws := hj
  outData := ho
  acc := ha
  st hi := by
    have hne : s.dec.st ≠ .emitEOF := by simp [st_of_inReady hr]
    left
    rw [Decoder.commit_st, eofTransition_of_ne hne, hst hi]
  untaken hu := by simp [hr] at hu

theorem exec_frame_of_hold (h : s.check = none) (hi : exec i s = holdCycle s) :
    ∃ c j, exec i s = .next { s with dec := c, draws := j } ∧ DecoderFrame s i c j :=
  ⟨_, _, hi.trans (holdCycle_eq h), decoderFrame_hold s i⟩

theorem exec_frame_of_offered (h : s.check = none) (hi : exec i s = offeredCycle s tr a o st)
    (ho : i ≠ .lf ∧ i ≠ .sent → o = s.dec.outData) (ha : i = .noxfer ∨ i = .sent → a = s.dec.acc)
    (hst : i ≠ .sent → st = s.dec.st) :
    ∃ c j, exec i s = .next { s with dec := c, draws := j } ∧ DecoderFrame s i c j := by
  rw [offeredCycle_eq h] at hi
  split at hi
  next hr => exact ⟨_, _, hi, decoderFrame_taken hr (fun _ => rfl) ho ha hst⟩
  next => exact exec_frame_of_hold h hi

/-- `OTHER`: the only operation that may count a free value (log 5). -/
theorem exec_other_frame (h : s.check = none) (b : Byte) :
    ∃ c j, exec (.other b) s = .next { s with dec := c, draws := j } ∧ DecoderFrame s (.other b) c j := by
  cases hm : s.cfg.nondigit with
  | draw =>
    have hi : exec (.other b) s = otherDraw s := by simp only [exec, execOther, hm]
    rw [otherDraw, checked_of_admissible h] at hi
    split at hi
    next hr =>
      exact ⟨_, _, hi, decoderFrame_taken hr (fun hb => absurd rfl (hb b)) (fun _ => rfl) (by simp) fun _ => rfl⟩
    next => exact exec_frame_of_hold h hi
  | wrap =>
    have hi : exec (.other b) s = offeredCycle s false (foldByte s.dec.acc b) s.dec.outData s.dec.st := by
      simp only [exec, execOther, hm]
    exact exec_frame_of_offered h hi (fun _ => rfl) (by simp) fun _ => rfl

end frame

/-! ### A WindowCounter's cycle -/

/-- A cycle of instance `k` writes the entry `k` of the window list and nothing else (R35, R36). -/
theorem windowCycle_frame {s : State} (h : s.check = none) {k : Nat} (hk : k < s.windows.length)
    (f : Window s.cfg.n → Window s.cfg.n) :
    ∃ us : List (Window s.cfg.n), windowCycle s k f = .next { s with windows := us } ∧
      us.length = s.windows.length ∧ ∀ j, j ≠ k → us[j]? = s.windows[j]? :=
  ⟨_, windowCycle_eq h (List.getElem?_eq_getElem hk) f, List.length_set,
    fun _ hj => List.getElem?_set_ne hj.symm⟩

theorem State.cycleWindow_r (s : State) (k : Nat) (v : Window s.cfg.n) :
    (s.cycleWindow k v).r = rampNext s.cfg.ramp (s.windowIn k v.feed).valid v.r := by
  unfold State.cycleWindow
  split
  next hv => rw [hv, Window.accept_r]
  next hv => rw [Bool.eq_false_iff.2 hv, Window.rest_r]

/-- While the gate is closed nothing is counted (R146). -/
theorem State.cycleWindow_count_of_closed (s : State) (k : Nat) {v : Window s.cfg.n} (hv : v.valid = false) :
    (s.cycleWindow k v).count = v.count := by
  unfold State.cycleWindow
  split
  · simp [countNext, hv]
  · exact Window.rest_count _ _

/-- No gate closes (R40 (b)). -/
theorem State.cycleWindow_valid (s : State) (k : Nat) {v : Window s.cfg.n} (ht : Safety.Thermometer v.r)
    (hv : v.valid = true) : (s.cycleWindow k v).valid = true := by
  rw [Window.valid, State.cycleWindow_r]
  exact rampTop_rampNext _ _ ht hv

/-- R40 (a) and (c): a gate that is 0 after the cycle was 0 before it, so the count was and still is 0. -/
theorem State.cycleWindow_invariant (s : State) (k : Nat) {v : Window s.cfg.n} (h : Safety.WindowInvariant v) :
    Safety.WindowInvariant (s.cycleWindow k v) := by
  obtain ⟨hthermo, hcount⟩ := h
  refine ⟨?_, fun hclosed => ?_⟩
  · rw [State.cycleWindow_r]
    exact thermometer_rampNext _ _ hthermo
  · have hv : v.valid = false := by
      by_contra hopen
      simp [s.cycleWindow_valid k hthermo (Bool.eq_true_of_not_eq_false hopen)] at hclosed
    rw [s.cycleWindow_count_of_closed k hv]
    exact hcount hv

/-- An instance's next registers depend on its registers, its ports and the ramp mode alone (R36, R92). -/
theorem State.cycleWindow_congr {s : State} {c : Decoder s.cfg.n} {vs : List (Window s.cfg.n)}
    {rows : List (HostRow s.cfg.n)} {t j k : Nat} {v : Window s.cfg.n}
    (hvalid : ((State.mk s.cfg c vs rows t j).windowIn k v.feed).valid = (s.windowIn k v.feed).valid)
    (hdata : (s.windowIn k v.feed).valid = true →
      ((State.mk s.cfg c vs rows t j).windowIn k v.feed).data.toNat = (s.windowIn k v.feed).data.toNat) :
    (State.mk s.cfg c vs rows t j).cycleWindow k v = s.cycleWindow k v := by
  unfold State.cycleWindow
  rw [hvalid]
  split
  next hv => rw [BitVec.eq_of_toNat_eq (hdata hv)]
  next => rfl

/-! ### A whole cycle -/

/-- Entry `k` of the window list after a cycle is instance `k` after it. -/
theorem State.after_getElem? (s : State) (k : Nat) :
    s.after.windows[k]? = s.windows[k]?.map (s.cycleWindow k) := by
  simpa using s.getElem?_cycleWindowsFrom 0 k s.windows

theorem invariant_after {s : State} (h : Safety.Invariant s) : Safety.Invariant s.after := by
  obtain ⟨hcheck, hwin⟩ := h
  refine ⟨check_step hcheck (step_eq hcheck), fun u hu => ?_⟩
  obtain ⟨k, hk⟩ := List.mem_iff_getElem?.1 hu
  rw [State.after_getElem?, Option.map_eq_some_iff] at hk
  obtain ⟨v, hv, rfl⟩ := hk
  exact s.cycleWindow_invariant k (hwin v (List.mem_of_getElem? hv))

theorem windowValid_after {s : State} (h : ∀ v ∈ s.windows, Safety.WindowInvariant v) {k : Nat}
    (hk : s.windowValid k = some true) : s.after.windowValid k = some true := by
  obtain ⟨v, hv, hvalid⟩ := Option.map_eq_some_iff.1 hk
  obtain ⟨hthermo, -⟩ := h v (List.mem_of_getElem? hv)
  rw [State.windowValid, State.after_getElem?, hv]
  exact congrArg some (s.cycleWindow_valid k hthermo hvalid)

/-! ### The obligations -/

/-- Settles O6: the Decoder's registers and `prev` and `count` are 0 by `Window.reset` and `Decoder.reset`, and
both chains are replicated zeros. -/
theorem resetRegisterValues : Obligations.ResetRegisterValues := by
  intro cfg instances
  refine ⟨rfl, BitVec.toNat_zero, rfl, BitVec.toNat_zero, List.length_map _, List.forall_mem_map.2 fun p _ => ?_⟩
  refine ⟨fun x hx => ?_, fun b hb => List.eq_of_mem_replicate hb, BitVec.toNat_zero, BitVec.toNat_zero⟩
  rw [List.eq_of_mem_replicate hx]
  exact BitVec.toNat_zero

/-- Settles O14: `NOXFER` holds, and the four byte operations commit values within their frame where the arbiter
is ready and hold where it is not. -/
theorem decoderOperationsFrame : Obligations.DecoderOperationsFrame := by
  intro s i h hi
  have hframe : ∃ c j, exec i s = .next { s with dec := c, draws := j } ∧ DecoderFrame s i c j := by
    rcases hi with rfl | rfl | rfl | ⟨d, rfl⟩ | ⟨b, rfl⟩
    case inl => exact exec_frame_of_hold h rfl
    case inr.inl => exact exec_frame_of_offered h rfl (by simp) (fun _ => rfl) (by simp)
    case inr.inr.inl => exact exec_frame_of_offered h rfl (by simp) (by simp) fun _ => rfl
    case inr.inr.inr.inl => exact exec_frame_of_offered h rfl (fun _ => rfl) (by simp) fun _ => rfl
    case inr.inr.inr.inr => exact exec_other_frame h b
  obtain ⟨c, j, hexec, f⟩ := hframe
  exact ⟨c, j, hexec, f.draws, f.outData, f.acc, f.st, f.untaken⟩

/-- Settles O29: both operations are a cycle of instance `k`. -/
theorem windowOperationsFrame : Obligations.WindowOperationsFrame := by
  intro s k i h hk hi
  rcases hi with rfl | ⟨x, rfl⟩
  · exact windowCycle_frame h hk _
  · exact windowCycle_frame h hk _

/-- Settles O34: by `step_eq` instance `k` of either machine becomes its `cycleWindow`, and these are equal by
`State.cycleWindow_congr`. -/
theorem instancesStepIndependently : Obligations.InstancesStepIndependently := by
  rintro s _ vs c rows t j k v rfl h h' hk hk' hvalid hdata
  refine ⟨_, _, _, _, _, _, step_eq h, step_eq h', ?_, ?_⟩
  · rw [s.after_getElem?, State.after_getElem?, hk, hk', Option.map_some, Option.map_some,
      State.cycleWindow_congr hvalid hdata]
  · rw [s.after_getElem?, hk]
    rfl

/-- Settles O35: the next state is `State.after`; each instance keeps R40 by `State.cycleWindow_invariant`. -/
theorem everyCycleKeepsTheInvariant : Obligations.EveryCycleKeepsTheInvariant := by
  intro s h
  obtain ⟨hcheck, hwin⟩ := h
  exact ⟨s.after, step_eq hcheck, invariant_after ⟨hcheck, hwin⟩, rfl, fun _ hk => windowValid_after hwin hk⟩

end Sys2Proof.Machine
end

section
/-! PROOFS. The cycle as a sequence of operations (20_memory.md, 30_encoding.md R74, R75): which operations a
cycle runs, and that a step runs them in order and then ticks the clock (R56, R58; log 10). -/

namespace Sys2Proof.Machine

/-! ### The instances' operations of a cycle (R75) -/

@[simp] theorem State.length_windowOpsFrom (s : State) (k : Nat) (vs : List (Window s.cfg.n)) :
    (s.windowOpsFrom k vs).length = vs.length := by
  induction vs generalizing k with
  | nil => rfl
  | cons v vs ih => simp [State.windowOpsFrom, ih]

/-- Entry `j` is the operation of the instance numbered `k + j`, selected by that instance's feed. -/
theorem State.getElem?_windowOpsFrom (s : State) (k j : Nat) (vs : List (Window s.cfg.n)) :
    (s.windowOpsFrom k vs)[j]? = vs[j]?.map fun v => s.windowOp (k + j) v.feed := by
  induction vs generalizing k j with
  | nil => simp [State.windowOpsFrom]
  | cons v vs ih =>
    cases j with
    | zero => simp [State.windowOpsFrom]
    | succ j => simp [State.windowOpsFrom, ih, Nat.add_assoc, Nat.add_comm 1 j]

/-! ### Running a cycle's operations (R56, R58) -/

theorem runOps_cons_of_next {i : Instr} {s t : State} (h : exec i s = .next t) (is : List Instr) :
    runOps (i :: is) s = runOps is t := by
  simp only [runOps, h]

theorem step_of_runOps {s u : State} (h : runOps s.cycleOps s = .next u) : step s = .next u.tick := by
  simp only [step, wholeCycle, h]

/-! ### The obligation -/

/-- Settles O39: the instances' operations are listed in order (`State.getElem?_windowOpsFrom`), and a cycle runs
the Decoder's operation and then that list (`State.cycleOps`). -/
theorem stepRunsTheDecodedOperations : Obligations.StepRunsTheDecodedOperations := by
  intro s
  refine ⟨s.length_windowOpsFrom 0 s.windows, fun k v hv => ?_, fun t u hdec hwin => ?_⟩
  · rw [s.getElem?_windowOpsFrom, hv, Option.map_some, Nat.zero_add]
  · have hrun : runOps s.cycleOps s = .next u := (runOps_cons_of_next hdec _).trans hwin
    exact step_of_runOps hrun

end Sys2Proof.Machine
end

section
/-! PROOFS. The encodings (30_encoding.md): the class of a byte as a number (R71 to R73), what each format decodes
to (R70, R74, R75), and that decoding and encoding undo each other (R81). -/

namespace Sys2Proof

/-! ### The class of a byte (R71, R72) -/

/-- In the digit range the byte subtraction of R72 does not wrap. -/
theorem setWidth_sub_zeroByte {b : Byte} (h : 0x30 ≤ b.toNat) (h' : b.toNat ≤ 0x39) :
    (b - zeroByte).setWidth 4 = BitVec.ofNat 4 (b.toNat - 0x30) := by
  unfold zeroByte
  bv_omega

/-- `cls` with R71's ranges written as numbers. -/
theorem cls_eq (b : Byte) :
    cls b =
      if b.toNat = 0x00 then .sent
      else if b.toNat = 0x0A then .lf
      else if 0x30 ≤ b.toNat ∧ b.toNat ≤ 0x39 then .digit (BitVec.ofNat 4 (b.toNat - 0x30))
      else .other := by
  have hsent : b = sentinelByte ↔ b.toNat = 0x00 := BitVec.toNat_inj.symm
  have hlf : b = lfByte ↔ b.toNat = 0x0A := BitVec.toNat_inj.symm
  have hdigit : zeroByte.toNat ≤ b.toNat ∧ b.toNat ≤ zeroByte.toNat + 9 ↔ 0x30 ≤ b.toNat ∧ b.toNat ≤ 0x39 := Iff.rfl
  simp only [cls, hsent, hlf, hdigit]
  split_ifs with _ _ hrange
  · rfl
  · rfl
  · rw [setWidth_sub_zeroByte hrange.1 hrange.2]
  · rfl

theorem cls_eq_sent_iff (b : Byte) : cls b = .sent ↔ b.toNat = 0x00 := by
  rw [cls_eq]
  split_ifs with h <;> simp [h]

theorem cls_eq_lf_iff (b : Byte) : cls b = .lf ↔ b.toNat = 0x0A := by
  rw [cls_eq]
  split_ifs with h h' <;> simp_all

theorem cls_eq_digit_iff (b : Byte) (d : BitVec 4) :
    cls b = .digit d ↔ 0x30 ≤ b.toNat ∧ b.toNat ≤ 0x39 ∧ d.toNat = b.toNat - 0x30 := by
  rw [cls_eq]
  split_ifs with hsent hlf hdigit
  · simp [hsent]
  · simp [hlf]
  · rw [ByteClass.digit.injEq]
    bv_omega
  · simp only [false_iff]
    omega

theorem cls_eq_other_iff (b : Byte) :
    cls b = .other ↔ b.toNat ≠ 0x00 ∧ b.toNat ≠ 0x0A ∧ ¬(0x30 ≤ b.toNat ∧ b.toNat ≤ 0x39) := by
  rw [cls_eq]
  split_ifs <;> simp_all

/-! ### The operation of a byte (R74) -/

theorem encode_decodeByte (b : Byte) : encode (decodeByte b) = ⟨.db, b.toNat⟩ := by
  unfold decodeByte
  split
  next h => rw [(cls_eq_sent_iff b).1 h]; rfl
  next h => rw [(cls_eq_lf_iff b).1 h]; rfl
  next d h =>
    obtain ⟨hlow, -, hd⟩ := (cls_eq_digit_iff b d).1 h
    have hbits : zeroByte.toNat + d.toNat = b.toNat := by
      rw [hd]
      exact Nat.add_sub_cancel' hlow
    rw [encode, hbits]
  next => rfl

/-- R73: the well-formed `OTHER` bytes are those of class `OTHER`. -/
theorem wellFormed_other_iff (n m : Nat) (b : Byte) : (Instr.other b).wellFormed n m = true ↔ cls b = .other := by
  rw [cls_eq_other_iff]
  simp [Instr.wellFormed, and_assoc, imp_iff_not_or]

theorem decodeByte_wellFormed (n m : Nat) (b : Byte) : (decodeByte b).wellFormed n m = true := by
  unfold decodeByte
  split
  next => rfl
  next => rfl
  next d h =>
    obtain ⟨-, hhigh, hd⟩ := (cls_eq_digit_iff b d).1 h
    exact decide_eq_true (by omega)
  next h => exact (wellFormed_other_iff n m b).2 h

/-- The byte a digit value stands for is of that digit's class (R72). -/
theorem decodeByte_digit {d : BitVec 4} (h : d.toNat ≤ 9) :
    decodeByte (BitVec.ofNat 8 (zeroByte.toNat + d.toNat)) = .digit d := by
  have hbyte : (BitVec.ofNat 8 (zeroByte.toNat + d.toNat)).toNat = 0x30 + d.toNat :=
    Nat.mod_eq_of_lt (show 0x30 + d.toNat < 256 by omega)
  have hcls : cls (BitVec.ofNat 8 (zeroByte.toNat + d.toNat)) = .digit d :=
    (cls_eq_digit_iff _ d).2 (by omega)
  rw [decodeByte, hcls]

theorem decodeByte_other {b : Byte} (h : cls b = .other) : decodeByte b = .other b := by
  rw [decodeByte, h]

/-! ### The operation of a sample word (R75): bit 0 is `v`, the bits above it are the sample -/

@[simp] theorem decodeSample_true (k s : Nat) : decodeSample k true s = .sample k s := rfl

@[simp] theorem decodeSample_false (k s : Nat) : decodeSample k false s = .idle k := rfl

theorem decodeSample_wellFormed {n m k s : Nat} (hk : k < m) (hs : s < 2 ^ n) (v : Bool) :
    (decodeSample k v s).wellFormed n m = true := by
  cases v <;> simp [Instr.wellFormed, hk, hs]

/-- `decodeSample` of the two fields of a `WS` word, by the word's parity. -/
theorem decodeSample_word (k w : Nat) :
    decodeSample k (w.testBit 0) (w / 2) = if w % 2 = 1 then .sample k (w / 2) else .idle k := by
  simp [decodeSample, Nat.testBit_zero]

/-! ### What each format decodes to -/

theorem decode_db_eq_ok_iff {n bits : Nat} {i : Instr} :
    decode n ⟨.db, bits⟩ = .ok i ↔ bits < 256 ∧ decodeByte (BitVec.ofNat 8 bits) = i := by
  rcases Nat.lt_or_ge bits 256 with h | h
  · simp [decode, Format.width, h, h.not_ge]
  · simp [decode, Format.width, h, h.not_gt]

theorem decode_dc_eq_ok_iff {n bits : Nat} {i : Instr} :
    decode n ⟨.dc, bits⟩ = .ok i ↔ bits = 0 ∧ .noxfer = i := by
  rcases Nat.eq_zero_or_pos bits with h | h
  · simp [decode, Format.width, h]
  · rcases Nat.lt_or_ge bits 2 with h' | h'
    · simp [decode, Format.width, h.ne', h'.not_ge]
    · simp [decode, Format.width, h.ne', h']

theorem decode_ws_eq_ok_iff {n k bits : Nat} {i : Instr} :
    decode n ⟨.ws k, bits⟩ = .ok i ↔
      bits < 2 ^ (n + 1) ∧ (if bits % 2 = 1 then .sample k (bits / 2) else .idle k) = i := by
  rw [← decodeSample_word]
  rcases Nat.lt_or_ge bits (2 ^ (n + 1)) with h | h
  · simp [decode, Format.width, h, h.not_ge]
  · simp [decode, Format.width, h, h.not_gt]

/-- The encoding of a well-formed operation fits its format (R70). -/
theorem encode_bits_lt {n m : Nat} {i : Instr} (h : i.wellFormed n m = true) :
    (encode i).bits < 2 ^ (encode i).fmt.width n := by
  cases i with
  | noxfer => exact Laws.EncodingFits.noxfer n m h
  | sent => exact Laws.EncodingFits.sent n m h
  | lf => exact Laws.EncodingFits.lf n m h
  | digit d => exact Laws.EncodingFits.digit d n m h
  | other b => exact Laws.EncodingFits.other b n m h
  | sample k x => exact Laws.EncodingFits.sample k x n m h
  | idle k => exact Laws.EncodingFits.idle k n m h

/-! ### Table words (log 12) -/

theorem decode_of_decodeTableWord {nbits w : Nat} {i : Instr} (h : decodeTableWord nbits w = some i) :
    decode Config.referenceN ⟨tableFormat nbits, w⟩ = .ok i := by
  unfold decodeTableWord at h
  split at h
  next => simp at h
  next =>
    split at h
    next hi => rw [hi, Option.some.inj h]
    next => simp at h

theorem decodeByte_of_decodeTableWord {nbits w : Nat} {i : Instr} (hn : nbits ≤ 8)
    (h : decodeTableWord nbits w = some i) : decodeByte (BitVec.ofNat 8 w) = i := by
  have hdecode := decode_of_decodeTableWord h
  rw [tableFormat, if_pos hn, decode_db_eq_ok_iff] at hdecode
  exact hdecode.2

theorem sampleOp_of_decodeTableWord {nbits w : Nat} {i : Instr} (hn : 8 < nbits)
    (h : decodeTableWord nbits w = some i) : i = if w % 2 = 1 then .sample 0 (w / 2) else .idle 0 := by
  have hdecode := decode_of_decodeTableWord h
  rw [tableFormat, if_neg hn.not_ge, decode_ws_eq_ok_iff] at hdecode
  exact hdecode.2.symm

/-! ### The obligations -/

/-- Settles O2: for each operation, its bits fit the format (`encode_bits_lt`) and the format's decoder gives the
operand back. -/
theorem decodeOfEncodeIsIdentity : Obligations.DecodeOfEncodeIsIdentity := by
  intro n m i h
  have hfits := encode_bits_lt h
  cases i with
  | noxfer => exact decode_dc_eq_ok_iff.2 ⟨rfl, rfl⟩
  | sent => exact decode_db_eq_ok_iff.2 ⟨hfits, rfl⟩
  | lf => exact decode_db_eq_ok_iff.2 ⟨hfits, rfl⟩
  | digit d => exact decode_db_eq_ok_iff.2 ⟨hfits, decodeByte_digit (of_decide_eq_true h)⟩
  | other b =>
    have hbyte : decodeByte (BitVec.ofNat 8 b.toNat) = .other b := by
      rw [BitVec.ofNat_toNat, BitVec.setWidth_eq, decodeByte_other ((wellFormed_other_iff n m b).1 h)]
    exact decode_db_eq_ok_iff.2 ⟨hfits, hbyte⟩
  | sample k x =>
    have hword : (if (2 * x + 1) % 2 = 1 then .sample k ((2 * x + 1) / 2) else .idle k) = Instr.sample k x := by
      rw [if_pos (by omega), show (2 * x + 1) / 2 = x by omega]
    exact decode_ws_eq_ok_iff.2 ⟨hfits, hword⟩
  | idle k => exact decode_ws_eq_ok_iff.2 ⟨hfits, rfl⟩

/-- Settles O3: a byte's class determines the byte (`encode_decodeByte`), and an odd `WS` word is twice its sample
and one. -/
theorem encodeOfDecodeIsIdentity : Obligations.EncodeOfDecodeIsIdentity := by
  refine ⟨encode_decodeByte, fun n k w i hodd hdecode => ?_⟩
  obtain ⟨-, rfl⟩ := decode_ws_eq_ok_iff.1 hdecode
  have hbits : 2 * (w / 2) + 1 = w := by omega
  rw [if_pos hodd, encode, hbits]

/-- Settles O4: by the three formats. -/
theorem decodedOperationsAreWellFormed : Obligations.DecodedOperationsAreWellFormed := by
  refine ⟨fun n m bits i hdecode => ?_, fun n m k bits i hk hdecode => ?_⟩
  · rcases hdecode with hdb | hdc
    · obtain ⟨-, rfl⟩ := decode_db_eq_ok_iff.1 hdb
      exact decodeByte_wellFormed n m _
    · obtain ⟨-, rfl⟩ := decode_dc_eq_ok_iff.1 hdc
      rfl
  · obtain ⟨hfits, rfl⟩ := decode_ws_eq_ok_iff.1 hdecode
    have hsample : bits / 2 < 2 ^ n := by omega
    rw [← decodeSample_word]
    exact decodeSample_wellFormed hk hsample _

/-- Settles O1. -/
theorem byteClassesAreAsTabled : Obligations.ByteClassesAreAsTabled :=
  fun b => ⟨cls_eq_sent_iff b, cls_eq_lf_iff b, cls_eq_digit_iff b, cls_eq_other_iff b⟩

/-- Settles O5: every word is a literal, so its decoding is evaluated. -/
theorem tabledWordsDecode : Obligations.TabledWordsDecode := by
  refine ⟨?_, ?_, ?_, ?_, ?_, ?_, ?_⟩ <;> decide

end Sys2Proof
end

section
/-! PROOFS. The operations a cycle's inputs select (30_encoding.md R74, R75): what a host-fed instance does with the
ports of the current row, and that a table word put on the ports is the operation of the very next step (R8; logs
12, 13). -/

namespace Sys2Proof.Machine

/-! ### A host-fed instance's ports (R30, R140; log 9) -/

section ports
variable {s : State} {k : Nat}

theorem State.hostWindowIn_of_row {row : HostRow s.cfg.n} {p : WindowIn s.cfg.n}
    (hrow : s.schedule.head? = some row) (hp : row.windows[k]? = some p) : s.hostWindowIn k = p := by
  simp [State.hostWindowIn, hrow, hp]

theorem State.windowOp_host (s : State) (k : Nat) :
    s.windowOp k .host = decodeSample k (s.hostWindowIn k).valid (s.hostWindowIn k).data.toNat := rfl

/-- Without a sample on its ports a host-fed instance rests (R148). -/
theorem State.cycleWindow_of_hostWindowIn_idle {v : Window s.cfg.n} {x : Word s.cfg.n} (hfeed : v.feed = .host)
    (hports : s.hostWindowIn k = ⟨false, x⟩) : s.cycleWindow k v = v.rest s.cfg.ramp := by
  simp [State.cycleWindow, State.windowIn, hfeed, hports]

end ports

/-! ### The row of a table word (logs 12, 13) -/

theorem fetchRow_byte (n m : Nat) {nbits : Nat} (w : Nat) (h : nbits ≤ 8) :
    fetchRow n m nbits w =
      { inValid := true, inData := BitVec.ofNat 8 w, egReady := true, windows := List.replicate m ⟨false, 0⟩ } := by
  simp [fetchRow, tableFormat, h]

theorem fetchRow_sample (n m : Nat) {nbits : Nat} (w : Nat) (h : 8 < nbits) :
    fetchRow n m nbits w =
      { inValid := false
        inData := 0
        egReady := true
        windows := ⟨w.testBit 0, BitVec.ofNat n (w / 2)⟩ :: List.replicate (m - 1) ⟨false, 0⟩ } := by
  simp [fetchRow, tableFormat, h.not_ge]

section fetch
variable (s : State) {nbits : Nat} (w : Nat) {k : Nat}

theorem inValid_withFetchWord_byte (h : nbits ≤ 8) : (s.withFetchWord nbits w).inValid = true :=
  congrArg HostRow.inValid (fetchRow_byte s.cfg.n s.windows.length w h)

theorem inData_withFetchWord_byte (h : nbits ≤ 8) : (s.withFetchWord nbits w).inData = BitVec.ofNat 8 w :=
  congrArg HostRow.inData (fetchRow_byte s.cfg.n s.windows.length w h)

theorem inValid_withFetchWord_sample (h : 8 < nbits) : (s.withFetchWord nbits w).inValid = false :=
  congrArg HostRow.inValid (fetchRow_sample s.cfg.n s.windows.length w h)

/-- A byte's row offers no sample to any instance. -/
theorem hostWindowIn_withFetchWord_byte (h : nbits ≤ 8) (hk : k < s.windows.length) :
    (s.withFetchWord nbits w).hostWindowIn k = ⟨false, 0⟩ :=
  State.hostWindowIn_of_row rfl (by simp [fetchRow_byte s.cfg.n s.windows.length w h, hk])

/-- A sample's row drives instance 0 with the word's two fields. -/
theorem hostWindowIn_withFetchWord_sample_zero (h : 8 < nbits) :
    (s.withFetchWord nbits w).hostWindowIn 0 = ⟨w.testBit 0, BitVec.ofNat s.cfg.n (w / 2)⟩ :=
  State.hostWindowIn_of_row rfl (by simp [fetchRow_sample s.cfg.n s.windows.length w h])

/-- A sample's row offers no sample to the other instances. -/
theorem hostWindowIn_withFetchWord_sample_succ (h : 8 < nbits) (hk : k + 1 < s.windows.length) :
    (s.withFetchWord nbits w).hostWindowIn (k + 1) = ⟨false, 0⟩ :=
  State.hostWindowIn_of_row rfl
    (by simp [fetchRow_sample s.cfg.n s.windows.length w h, Nat.lt_sub_of_add_lt hk])

end fetch

/-! ### A byte: the Decoder's operation, with every instance held (R102, R148) -/

/-- A byte the arbiter is ready for is the Decoder's operation of the cycle. -/
theorem decoderOp_withFetchWord_byte (s : State) {nbits w : Nat} (h : nbits ≤ 8)
    (hr : (s.withFetchWord nbits w).inReady = true) :
    (s.withFetchWord nbits w).decoderOp = decodeByte (BitVec.ofNat 8 w) := by
  have hx : (s.withFetchWord nbits w).inXfer = true := by
    rw [State.inXfer, hr, inValid_withFetchWord_byte s w h, Bool.and_true]
  rw [State.decoderOp, hx, inData_withFetchWord_byte s w h]
  rfl

/-- Under the default reading of the ramp a byte's row leaves every host-fed instance as it is. -/
theorem cycleWindows_withFetchWord_byte {s : State} {nbits w : Nat} (h : nbits ≤ 8) (hramp : s.cfg.ramp = .onAccept)
    (hfeed : ∀ v ∈ s.windows, v.feed = .host) :
    (s.withFetchWord nbits w).cycleWindowsFrom 0 s.windows = s.windows := by
  refine List.ext_getElem? fun k => ?_
  rw [State.getElem?_cycleWindowsFrom, Nat.zero_add]
  cases hv : s.windows[k]? with
  | none => rfl
  | some v =>
    obtain ⟨hk, -⟩ := List.getElem?_eq_some_iff.1 hv
    have hrest : (s.withFetchWord nbits w).cycleWindow k v = v.rest s.cfg.ramp :=
      State.cycleWindow_of_hostWindowIn_idle (hfeed v (List.mem_of_getElem? hv))
        (hostWindowIn_withFetchWord_byte s w h hk)
    rw [Option.map_some, hrest, hramp, Window.rest_onAccept]

/-! ### A sample: instance 0's operation, with the Decoder at `NOXFER` and the others idle (R75, R109) -/

theorem decoderOp_withFetchWord_sample (s : State) {nbits : Nat} (w : Nat) (h : 8 < nbits) :
    (s.withFetchWord nbits w).decoderOp = .noxfer := by
  rw [State.decoderOp, State.inXfer, inValid_withFetchWord_sample s w h, Bool.and_false]
  rfl

/-- The instances' operations: instance 0 reads the word, modulo `2^N`, and the others idle. -/
theorem windowOps_withFetchWord_sample {s : State} {nbits : Nat} (w : Nat) (h : 8 < nbits)
    (hfeed : ∀ v ∈ s.windows, v.feed = .host) (hpos : 0 < s.windows.length) :
    (s.withFetchWord nbits w).windowOpsFrom 0 s.windows =
      decodeSample 0 (w.testBit 0) (BitVec.ofNat s.cfg.n (w / 2)).toNat ::
        (List.range (s.windows.length - 1)).map fun k => .idle (k + 1) := by
  refine List.ext_getElem? fun k => ?_
  rw [State.getElem?_windowOpsFrom, Nat.zero_add]
  rcases Nat.lt_or_ge k s.windows.length with hk | hk
  · rw [List.getElem?_eq_getElem hk, Option.map_some, hfeed _ (List.getElem_mem hk), State.windowOp_host]
    cases k with
    | zero => rw [hostWindowIn_withFetchWord_sample_zero s w h]; rfl
    | succ k =>
      rw [hostWindowIn_withFetchWord_sample_succ s w h hk, decodeSample_false]
      simp [Nat.lt_sub_of_add_lt hk]
  · obtain ⟨j, rfl⟩ := Nat.exists_eq_succ_of_ne_zero (show k ≠ 0 by omega)
    simp [hk, show s.windows.length - 1 ≤ j by omega]

/-- A sample enters its instance modulo `2^N` (R15). -/
theorem exec_decodeSample_ofNat (t : State) (k x : Nat) (v : Bool) :
    exec (decodeSample k v (BitVec.ofNat t.cfg.n x).toNat) t = exec (decodeSample k v x) t := by
  cases v with
  | false => rfl
  | true => simp only [decodeSample_true, exec, execSample, BitVec.ofNat_toNat, BitVec.setWidth_eq]

/-! ### A run of operations, taken apart -/

theorem runOps_cons_eq_next {i : Instr} {is : List Instr} {s u : State} (h : runOps (i :: is) s = .next u) :
    ∃ t, exec i s = .next t ∧ runOps is t = .next u := by
  rw [runOps] at h
  split at h
  next t ht => exact ⟨t, ht, h⟩
  next => cases h
  next => cases h

/-- The operations of an admissible cycle all have a next state, and the step is the last of them with the clock
advanced. -/
theorem runOps_cycleOps_eq_next {s : State} (h : s.check = none) :
    ∃ u, runOps s.cycleOps s = .next u ∧ step s = .next u.tick := by
  have hstep := step_eq h
  rw [step, wholeCycle] at hstep
  split at hstep
  next u hu => exact ⟨u, hu, step_of_runOps hu⟩
  next => cases hstep
  next => cases hstep

/-! ### The obligations -/

/-- Settles O40: the byte is the Decoder's operation of the cycle (`exec_decoderOp`), and the step's next state
(`step_eq`) differs from the operation's by the clock alone. -/
theorem fetchedByteRunsNext : Obligations.FetchedByteRunsNext := by
  intro s nbits w i hcheck hramp hfeed hn hword hready
  have hc : (s.withFetchWord nbits w).check = none := hcheck
  have hop : (s.withFetchWord nbits w).decoderOp = i := by
    rw [decoderOp_withFetchWord_byte s hn hready, decodeByte_of_decodeTableWord hn hword]
  refine ⟨_, hop ▸ exec_decoderOp hc, ?_⟩
  rw [step_eq hc, State.after, State.withFetchWord_windows, cycleWindows_withFetchWord_byte hn hramp hfeed]

/-- Settles O45: the operations of the cycle are `NOXFER`, the word's and the others' `IDLE`
(`windowOps_withFetchWord_sample`); all answer a next state, and the step is their run. -/
theorem fetchedSampleRunsNext : Obligations.FetchedSampleRunsNext := by
  intro s nbits w i hcheck hfeed hpos hn hword
  have hi := sampleOp_of_decodeTableWord hn hword
  refine ⟨hi, ?_⟩
  have hc : (s.withFetchWord nbits w).check = none := hcheck
  obtain ⟨v, hrun, hstep⟩ := runOps_cycleOps_eq_next hc
  rw [State.cycleOps, decoderOp_withFetchWord_sample s w hn, State.withFetchWord_windows,
    windowOps_withFetchWord_sample w hn hfeed hpos] at hrun
  obtain ⟨t, ht, hrun⟩ := runOps_cons_eq_next hrun
  obtain ⟨u, hu, hrun⟩ := runOps_cons_eq_next hrun
  refine ⟨t, u, v, ht, ?_, hrun, hstep⟩
  have hcfg : t.cfg = s.cfg := by
    rw [exec, execNoxfer, holdCycle_eq hc] at ht
    cases ht
    rfl
  rw [← hcfg, exec_decodeSample_ofNat, decodeSample_word] at hu
  rwa [hi]

/-- Settles O44: where the current row has an entry for the instance, its ports are that entry
(`State.hostWindowIn_of_row`); whatever drives them, a sample on them has `N` bits. -/
theorem hostFedInstancesFollowTheirPorts : Obligations.HostFedInstancesFollowTheirPorts := by
  intro s k
  refine ⟨fun row x hrow hp => ?_, fun row x hrow hp => ?_, fun _ => ?_⟩
  · rw [State.windowOp_host, State.hostWindowIn_of_row hrow hp, decodeSample_true]
  · rw [State.windowOp_host, State.hostWindowIn_of_row hrow hp, decodeSample_false]
  · rw [State.windowOp_host]
    cases (s.hostWindowIn k).valid with
    | false => exact .inl rfl
    | true => exact .inr ⟨_, (s.hostWindowIn k).data.isLt, rfl⟩

end Sys2Proof.Machine
end

section
/-! PROOFS. The handshake (40_handshake.md): what a cycle loads and what it delivers (R97, R98, R103, R104, R118),
that no word is lost or duplicated over a run and under any host (R95, R114 to R119), and that data which does not
transfer is not read (R92, R148). -/

namespace Sys2Proof.Machine

open Safety

/-! ### The Decoder's next registers, by what it takes (R105 to R109) -/

section decoder
variable {s : State}

theorem State.inReady_of_inXfer (h : s.inXfer = true) : s.inReady = true :=
  (Bool.and_eq_true_iff.1 h).1

theorem State.trigger_of_untaken (h : s.inXfer = false) : s.trigger = false := by
  simp [State.trigger, h]

theorem State.trigger_of_taken (h : s.inXfer = true) :
    s.trigger = (decide (cls s.inData = .lf) || decide (cls s.inData = .sent)) := by
  simp [State.trigger, h]

theorem State.cycleDecoder_of_untaken (h : s.inXfer = false) :
    s.cycleDecoder = s.dec.commit s.egReady false s.dec.acc s.dec.outData s.dec.st := by
  simp [State.cycleDecoder, h]

theorem State.cycleDraws_of_untaken (h : s.inXfer = false) : s.cycleDraws = s.draws := by
  simp [State.cycleDraws, h]

section taken
variable (h : s.inXfer = true)
include h

theorem State.cycleDecoder_of_sent (hc : cls s.inData = .sent) :
    s.cycleDecoder = s.dec.commit s.egReady true s.dec.acc (eofWord s.cfg.n) .emitEOF := by
  simp [State.cycleDecoder, h, hc]

theorem State.cycleDecoder_of_lf (hc : cls s.inData = .lf) :
    s.cycleDecoder = s.dec.commit s.egReady true 0 s.dec.acc s.dec.st := by
  simp [State.cycleDecoder, h, hc]

theorem State.cycleDecoder_of_digit {d : BitVec 4} (hc : cls s.inData = .digit d) :
    s.cycleDecoder = s.dec.commit s.egReady false (accumulate s.dec.acc d) s.dec.outData s.dec.st := by
  simp [State.cycleDecoder, h, hc]

/-- `OTHER` writes `acc` alone, in either mode (R108). -/
theorem State.cycleDecoder_of_other (hc : cls s.inData = .other) :
    ∃ a, s.cycleDecoder = s.dec.commit s.egReady false a s.dec.outData s.dec.st := by
  cases hm : s.cfg.nondigit <;> exact ⟨_, by simp [State.cycleDecoder, h, hc, hm]; rfl⟩

end taken

/-! ### The word a cycle loads (R104, R118) -/

theorem loaded_of_trigger_false (h : s.trigger = false) : loaded s = [] := by
  simp [loaded, h]

theorem loaded_of_sent (h : s.inXfer = true) (hc : cls s.inData = .sent) : loaded s = [(eofWord s.cfg.n).toNat] := by
  have hzero : s.inData = 0x00 := BitVec.eq_of_toNat_eq ((cls_eq_sent_iff _).1 hc)
  have ht : s.trigger = true := by simp [State.trigger_of_taken h, hc]
  rw [loaded, if_pos ht, if_pos hzero, eofWord_toNat]

theorem loaded_of_lf (h : s.inXfer = true) (hc : cls s.inData = .lf) : loaded s = [s.dec.acc.toNat] := by
  have hne : s.inData ≠ 0x00 := by
    intro h0
    rw [h0] at hc
    exact absurd hc (by decide)
  have ht : s.trigger = true := by simp [State.trigger_of_taken h, hc]
  rw [loaded, if_pos ht, if_neg hne]

/-- A cycle commits with `out_valid` raised by the trigger, and `out_data` is the loaded word or holds. -/
theorem State.cycleDecoder_load (s : State) :
    ∃ a o st, s.cycleDecoder = s.dec.commit s.egReady s.trigger a o st ∧
      (s.trigger = true → loaded s = [o.toNat]) ∧ (s.trigger = false → o = s.dec.outData) := by
  cases hx : s.inXfer with
  | false =>
    rw [State.trigger_of_untaken hx, State.cycleDecoder_of_untaken hx]
    exact ⟨_, _, _, rfl, nofun, fun _ => rfl⟩
  | true =>
    have htr := State.trigger_of_taken hx
    cases hc : cls s.inData with
    | sent =>
      rw [show s.trigger = true by simp [htr, hc]]
      exact ⟨_, _, _, State.cycleDecoder_of_sent hx hc, fun _ => loaded_of_sent hx hc, nofun⟩
    | lf =>
      rw [show s.trigger = true by simp [htr, hc]]
      exact ⟨_, _, _, State.cycleDecoder_of_lf hx hc, fun _ => loaded_of_lf hx hc, nofun⟩
    | digit d =>
      rw [show s.trigger = false by simp [htr, hc]]
      exact ⟨_, _, _, State.cycleDecoder_of_digit hx hc, nofun, fun _ => rfl⟩
    | other =>
      rw [show s.trigger = false by simp [htr, hc]]
      obtain ⟨a, ha⟩ := State.cycleDecoder_of_other hx hc
      exact ⟨_, _, _, ha, nofun, fun _ => rfl⟩

/-- R110. -/
theorem State.cycleDecoder_outValid (s : State) :
    s.cycleDecoder.outValid = (s.trigger || (s.dec.outValid && !s.egReady)) := by
  obtain ⟨a, o, st, hdec, -, -⟩ := s.cycleDecoder_load
  rw [hdec, Decoder.commit_outValid]

theorem State.cycleDecoder_outData (h : s.trigger = false) : s.cycleDecoder.outData = s.dec.outData := by
  obtain ⟨a, o, st, hdec, -, hhold⟩ := s.cycleDecoder_load
  rw [hdec, Decoder.commit_outData, hhold h]

theorem loaded_of_trigger (h : s.trigger = true) : loaded s = [s.cycleDecoder.outData.toNat] := by
  obtain ⟨a, o, st, hdec, hload, -⟩ := s.cycleDecoder_load
  rw [hdec, Decoder.commit_outData, hload h]

/-! ### A stalled cycle (R98, R101) -/

theorem State.inReady_of_stalled (hv : s.dec.outValid = true) (hr : s.egReady = false) : s.inReady = false := by
  simp [State.inReady, hv, hr]

theorem State.inXfer_of_stalled (hv : s.dec.outValid = true) (hr : s.egReady = false) : s.inXfer = false := by
  rw [State.inXfer, State.inReady_of_stalled hv hr, Bool.false_and]

/-- A trigger never finds a word pending that does not transfer (R101, R102). -/
theorem State.egReady_of_trigger (hv : s.dec.outValid = true) (ht : s.trigger = true) : s.egReady = true := by
  by_contra hr
  simp [State.trigger_of_untaken (State.inXfer_of_stalled hv (Bool.eq_false_of_not_eq_true hr))] at ht

theorem Decoder.commit_stalled {n : Nat} {c : Decoder n} (hv : c.outValid = true) :
    c.commit false false c.acc c.outData c.st = c := by
  obtain ⟨st, acc, ov, od⟩ := c
  subst hv
  simp [Decoder.commit, eofTransition, outValidNext]

theorem State.cycleDecoder_of_stalled (hv : s.dec.outValid = true) (hr : s.egReady = false) :
    s.cycleDecoder = s.dec := by
  rw [State.cycleDecoder_of_untaken (State.inXfer_of_stalled hv hr), hr, Decoder.commit_stalled hv]

/-! ### One cycle conserves words (R97) -/

/-- What is pending and what is loaded in a cycle is what transfers in it and what is pending after it. -/
theorem pending_append_loaded (s : State) : pending s ++ loaded s = transferred s ++ pending s.after := by
  have hvalid : s.after.dec.outValid = _ := s.cycleDecoder_outValid
  cases ht : s.trigger with
  | true =>
    have hpending : pending s.after = loaded s := by
      rw [loaded_of_trigger ht, pending, hvalid, ht]
      rfl
    have htransferred : transferred s = pending s := by
      cases hv : s.dec.outValid with
      | false => simp [transferred, pending, State.egXfer, State.egValid, hv]
      | true => simp [transferred, pending, State.egXfer, State.egValid, hv, State.egReady_of_trigger hv ht]
    rw [hpending, htransferred]
  | false =>
    have hdata : s.after.dec.outData = s.dec.outData := State.cycleDecoder_outData ht
    rw [loaded_of_trigger_false ht, transferred, pending, pending, hvalid, hdata, ht, State.egXfer, State.egValid]
    cases s.dec.outValid <;> cases s.egReady <;> rfl

end decoder

/-! ### The obligations on single cycles and on runs -/

theorem runFor_succ {s : State} (h : s.check = none) (k : Nat) : runFor (k + 1) s = runFor k s.after := by
  simp only [runFor, step_eq h]

theorem recorded_succ {s : State} (h : s.check = none) (event : State → List Nat) (k : Nat) :
    recorded event (k + 1) s = event s ++ recorded event k s.after := by
  simp only [recorded, step_eq h]

/-- Settles O20: each cycle conserves words (`pending_append_loaded`), and the run follows by induction on its
length. -/
theorem wordsAreConserved : Obligations.WordsAreConserved := by
  intro k
  induction k with
  | zero => exact fun s _ => ⟨s, rfl, by simp [recorded]⟩
  | succ k ih =>
    intro s h
    obtain ⟨t, hrun, hwords⟩ := ih s.after (check_step h (step_eq h))
    refine ⟨t, (runFor_succ h k).trans hrun, ?_⟩
    rw [recorded_succ h, recorded_succ h]
    calc pending s ++ (loaded s ++ recorded loaded k s.after)
        = transferred s ++ (pending s.after ++ recorded loaded k s.after) := by
          rw [← List.append_assoc, pending_append_loaded, List.append_assoc]
      _ = transferred s ++ recorded transferred k s.after ++ pending t := by
          rw [hwords, List.append_assoc]

/-- Settles O18: the arbiter is not ready (R101), and the cycle's commit is then the identity on the Decoder. -/
theorem backpressureHoldsTheDecoder : Obligations.BackpressureHoldsTheDecoder := by
  intro s h hv hr
  refine ⟨State.inReady_of_stalled hv hr, s.cycleWindowsFrom 0 s.windows, ?_⟩
  rw [step_eq h, State.after, State.cycleDecoder_of_stalled hv hr,
    State.cycleDraws_of_untaken (State.inXfer_of_stalled hv hr)]

/-- Settles O19: a stalled cycle holds the Decoder, and with `eg_ready = 1` the pending word after the cycle is the
one the trigger loads (`loaded_of_trigger`), if there is one. -/
theorem pendingWordIsNeverOverwritten : Obligations.PendingWordIsNeverOverwritten := by
  intro s h hv
  have hvalid : s.after.dec.outValid = _ := s.cycleDecoder_outValid
  refine ⟨s.after, step_eq h, fun hr => ?_, fun _ ht => ?_, fun hr ht => ?_⟩
  · have hdec : s.after.dec = s.dec := State.cycleDecoder_of_stalled hv hr
    rw [hdec]
    exact ⟨hv, rfl⟩
  · exact ⟨by rw [hvalid, ht, Bool.true_or], loaded_of_trigger ht⟩
  · exact ⟨by rw [hvalid, ht, hv, hr]; rfl, congrArg BitVec.toNat (State.cycleDecoder_outData ht)⟩

/-! ### The words of a byte stream (R78, R114 to R119) -/

section stream
variable (n a : Nat) {b : Byte} (bs : List Byte)

theorem streamWords_sent (h : cls b = .sent) : streamWords n a (b :: bs) = [2 ^ n - 1] := by
  rw [streamWords, if_pos ((cls_eq_sent_iff b).1 h)]

theorem streamWords_lf (h : cls b = .lf) : streamWords n a (b :: bs) = a :: streamWords n 0 bs := by
  have hb := (cls_eq_lf_iff b).1 h
  rw [streamWords, if_neg (by omega), if_pos hb]

theorem streamWords_digit {d : BitVec 4} (h : cls b = .digit d) :
    streamWords n a (b :: bs) = streamWords n ((a * 10 + d.toNat) % 2 ^ n) bs := by
  obtain ⟨hlow, -, hd⟩ := (cls_eq_digit_iff b d).1 h
  rw [streamWords, if_neg (by omega), if_neg (by omega), hd]

theorem cls_ne_other_of_plain (h : Plain b) : cls b ≠ .other := by
  intro hc
  obtain ⟨hsent, hlf, hdigit⟩ := (cls_eq_other_iff b).1 hc
  rcases h with h | h | h
  · exact hsent h
  · exact hlf h
  · exact hdigit h

end stream

/-- What the bytes `bs` not yet taken will still load: nothing once the Decoder has left `Parsing` (R119). -/
def undecoded (s : State) (bs : List Byte) : List Nat :=
  if s.dec.st = .parsing then streamWords s.cfg.n s.dec.acc.toNat bs else []

theorem outstanding_eq (s : State) (bs : List Byte) : outstanding s bs = pending s ++ undecoded s bs := rfl

theorem undecoded_of_parsing {s : State} (h : s.dec.st = .parsing) (bs : List Byte) :
    undecoded s bs = streamWords s.cfg.n s.dec.acc.toNat bs := if_pos h

theorem undecoded_of_left {s : State} (h : s.dec.st ≠ .parsing) (bs : List Byte) : undecoded s bs = [] := if_neg h

/-- Without a byte the Decoder neither enters nor leaves `Parsing` (R111). -/
theorem eofTransition_self_eq_parsing_iff (st : DecoderState) (x : Bool) :
    eofTransition st x st = .parsing ↔ st = .parsing := by
  cases st <;> cases x <;> simp [eofTransition]

section decode
variable {s : State}

theorem undecoded_of_untaken (h : s.inXfer = false) (bs : List Byte) : undecoded s bs = undecoded s.after bs := by
  simp only [undecoded, State.after, State.cycleDecoder_of_untaken h, Decoder.commit_acc, Decoder.commit_st,
    eofTransition_self_eq_parsing_iff]

/-- A taken byte moves its own words from the undecoded bytes to the loaded ones. -/
theorem undecoded_of_taken (h : s.inXfer = true) (hp : Plain s.inData) (bs : List Byte) :
    undecoded s (s.inData :: bs) = loaded s ++ undecoded s.after bs := by
  have hst : s.dec.st = .parsing := st_of_inReady (State.inReady_of_inXfer h)
  have hnext (x : Bool) (w : DecoderState) : eofTransition s.dec.st x w = w :=
    eofTransition_of_ne (by simp [hst]) x w
  rw [undecoded_of_parsing hst]
  cases hc : cls s.inData with
  | sent =>
    have hleft : s.after.dec.st ≠ .parsing := by simp [State.cycleDecoder_of_sent h hc, hnext]
    rw [streamWords_sent _ _ _ hc, loaded_of_sent h hc, undecoded_of_left hleft, eofWord_toNat]
    rfl
  | lf =>
    have hdec : s.after.dec = _ := State.cycleDecoder_of_lf h hc
    have hstay : s.after.dec.st = .parsing := by rw [hdec, Decoder.commit_st, hnext, hst]
    rw [streamWords_lf _ _ _ hc, loaded_of_lf h hc, undecoded_of_parsing hstay, hdec]
    simp
  | digit d =>
    have hdec : s.after.dec = _ := State.cycleDecoder_of_digit h hc
    have hstay : s.after.dec.st = .parsing := by rw [hdec, Decoder.commit_st, hnext, hst]
    have hnone : loaded s = [] := loaded_of_trigger_false (by simp [State.trigger_of_taken h, hc])
    rw [streamWords_digit _ _ _ hc, hnone, undecoded_of_parsing hstay, hdec,
      Decoder.commit_acc, accumulate_toNat]
    rfl
  | other => exact absurd hc (cls_ne_other_of_plain hp)

end decode

/-! ### A host that sends a list of bytes (R95; log 22) -/

/-- The bytes left after a cycle in which the host offers `bs`. -/
abbrev leftover (bs : List Byte) (turn : Turn) (s : State) : List Byte :=
  if (offer bs turn s).inXfer then bs.tail else bs

theorem eq_inData_cons_of_inXfer {bs : List Byte} {turn : Turn} {s : State} (h : (offer bs turn s).inXfer = true) :
    bs = (offer bs turn s).inData :: bs.tail := by
  cases bs with
  | nil => simp [State.inXfer] at h
  | cons b bs => rfl

theorem leftover_suffix (bs : List Byte) (turn : Turn) (s : State) : leftover bs turn s <:+ bs := by
  unfold leftover
  split
  · exact List.tail_suffix bs
  · exact List.suffix_refl bs

/-- One cycle of such a host: the words outstanding are the word that transfers and those outstanding after it. -/
theorem outstanding_offer {bs : List Byte} (turn : Turn) (s : State) (hp : ∀ b ∈ bs, Plain b) :
    outstanding s bs =
      transferred (offer bs turn s) ++ outstanding (offer bs turn s).after (leftover bs turn s) := by
  have hdecode : undecoded (offer bs turn s) bs =
      loaded (offer bs turn s) ++ undecoded (offer bs turn s).after (leftover bs turn s) := by
    cases hx : (offer bs turn s).inXfer with
    | false =>
      rw [leftover, hx, loaded_of_trigger_false (State.trigger_of_untaken hx)]
      exact undecoded_of_untaken hx bs
    | true =>
      have hbs := eq_inData_cons_of_inXfer hx
      have hb : Plain (offer bs turn s).inData := hp _ (hbs ▸ List.mem_cons_self)
      rw [leftover, hx, if_pos rfl, ← undecoded_of_taken hx hb, ← hbs]
  calc outstanding s bs
      = pending (offer bs turn s) ++ undecoded (offer bs turn s) bs := rfl
    _ = _ := by
      rw [hdecode, ← List.append_assoc, pending_append_loaded, List.append_assoc, outstanding_eq]

theorem hostRun_cons {bs : List Byte} {turn : Turn} {s : State} (h : s.check = none) (turns : List Turn) :
    hostRun (turn :: turns) bs s =
      (hostRun turns (leftover bs turn s) (offer bs turn s).after).map fun out =>
        (transferred (offer bs turn s) ++ out.1, out.2) := by
  have hc : (offer bs turn s).check = none := h
  simp only [hostRun, step_eq hc]

/-- Settles O23: by induction on the turns, with `outstanding_offer` for each cycle. -/
theorem roundTripUnderBackpressure : Obligations.RoundTripUnderBackpressure := by
  intro s bs turns
  induction turns generalizing s bs with
  | nil => exact fun _ _ => ⟨[], bs, s, rfl, rfl, List.suffix_refl bs⟩
  | cons turn turns ih =>
    intro h hp
    have hc : (offer bs turn s).check = none := h
    have hleft := leftover_suffix bs turn s
    obtain ⟨ws, rest, t, hrun, hout, hrest⟩ :=
      ih _ (leftover bs turn s) (check_step hc (step_eq hc)) fun b hb => hp b (hleft.subset hb)
    refine ⟨transferred (offer bs turn s) ++ ws, rest, t, ?_, ?_, hrest.trans hleft⟩
    · rw [hostRun_cons h, hrun]
      rfl
    · rw [outstanding_offer turn s hp, hout, List.append_assoc]

/-! ### Data that does not transfer (R92, R148) -/

/-- A wire reads the host's ready and valid ports and the registers behind the valid ports, no data (R205). -/
theorem wireValue_congr {s t : State} (hready : s.hostReady = t.hostReady) (hin : s.inValid = t.inValid)
    (hout : s.dec.outValid = t.dec.outValid) (hwin : ∀ k, s.windowValid k = t.windowValid k) (wire : ReadyWire) :
    wireValue s wire = wireValue t wire := by
  induction wire with
  | const | inReady => rfl
  | hostReady => exact hready
  | hostInValid => exact hin
  | egValid => exact hout
  | windowValid k => simp only [wireValue, hwin]
  | not _ ih => simp only [wireValue, ih]
  | and _ _ iha ihb | or _ _ iha ihb => simp only [wireValue, iha, ihb]

/-- `s` with other rows for the host to drive. -/
abbrev State.withSchedule (s : State) (rows : List (HostRow s.cfg.n)) : State :=
  { s with schedule := rows }

/-- The schedule `rows` drives this cycle as `s` does, but for data that the Decoder does not take and that no
host-fed instance samples; later cycles it drives the same. -/
structure DrivesAlike (s : State) (rows : List (HostRow s.cfg.n)) : Prop where
  inValid : (s.withSchedule rows).inValid = s.inValid
  inData : s.inXfer = true → (s.withSchedule rows).inData = s.inData
  hostReady : (s.withSchedule rows).hostReady = s.hostReady
  windowValid : ∀ k, ((s.withSchedule rows).hostWindowIn k).valid = (s.hostWindowIn k).valid
  windowData : ∀ k, (s.hostWindowIn k).valid = true →
    ((s.withSchedule rows).hostWindowIn k).data = (s.hostWindowIn k).data
  later : rows.drop 1 = s.schedule.drop 1

namespace DrivesAlike
variable {s : State} {rows : List (HostRow s.cfg.n)} (d : DrivesAlike s rows)
include d

theorem egReady_eq : (s.withSchedule rows).egReady = s.egReady :=
  wireValue_congr d.hostReady d.inValid rfl (fun _ => rfl) _

theorem inXfer_eq : (s.withSchedule rows).inXfer = s.inXfer := by
  simp only [State.inXfer, State.inReady, d.egReady_eq, d.inValid]

theorem cycleDecoder_eq : (s.withSchedule rows).cycleDecoder = s.cycleDecoder := by
  cases hx : s.inXfer with
  | false =>
    rw [State.cycleDecoder_of_untaken hx, State.cycleDecoder_of_untaken (d.inXfer_eq.trans hx), d.egReady_eq]
  | true => simp only [State.cycleDecoder, d.inXfer_eq, d.egReady_eq, d.inData hx]

theorem cycleDraws_eq : (s.withSchedule rows).cycleDraws = s.cycleDraws := by
  cases hx : s.inXfer with
  | false => rw [State.cycleDraws_of_untaken hx, State.cycleDraws_of_untaken (d.inXfer_eq.trans hx)]
  | true => simp only [State.cycleDraws, d.inXfer_eq, d.inData hx]

theorem connectorOut_eq : (s.withSchedule rows).connectorOut = s.connectorOut := by
  simp only [State.connectorOut, d.egReady_eq]
  rfl

theorem cycleWindow_eq (k : Nat) (v : Window s.cfg.n) :
    (s.withSchedule rows).cycleWindow k v = s.cycleWindow k v := by
  apply State.cycleWindow_congr
  all_goals cases v.feed
  case hvalid.host => exact d.windowValid k
  case hvalid.connector => exact congrArg WindowIn.valid d.connectorOut_eq
  case hdata.host => exact fun hv => congrArg BitVec.toNat (d.windowData k hv)
  case hdata.connector => exact fun _ => congrArg (BitVec.toNat ∘ WindowIn.data) d.connectorOut_eq

theorem after_eq : (s.withSchedule rows).after = s.after := by
  have hwindows : (s.withSchedule rows).cycleWindowsFrom 0 s.windows = s.cycleWindowsFrom 0 s.windows :=
    List.ext_getElem? fun k => by
      rw [s.getElem?_cycleWindowsFrom, State.getElem?_cycleWindowsFrom]
      exact congrArg (Option.map · _) (funext (d.cycleWindow_eq (0 + k)))
  simp only [State.after, d.cycleDecoder_eq, d.cycleDraws_eq, hwindows, d.later]

/-- A refused state is refused for reasons that no input takes part in, and an admissible one has the same next
state. -/
theorem step_congr : step (s.withSchedule rows) = step s := by
  have hcheck : (s.withSchedule rows).check = s.check := rfl
  cases hc : s.check with
  | none => rw [step_eq hc, step_eq (hcheck.trans hc), d.after_eq]
  | some why => rw [step_refused hc, step_refused (hcheck.trans hc)]

end DrivesAlike

/-- Another word in an entry of the row with `in_valid = 0` changes the data port of that instance alone. -/
theorem hostWindowIn_set_idle (s : State) {row : HostRow s.cfg.n} (rows : List (HostRow s.cfg.n)) {k : Nat}
    {x : Word s.cfg.n} (hk : row.windows[k]? = some ⟨false, x⟩) (y : Word s.cfg.n) (j : Nat) :
    (s.withSchedule ({ row with windows := row.windows.set k ⟨false, y⟩ } :: rows)).hostWindowIn j =
      if j = k then ⟨false, y⟩ else (s.withSchedule (row :: rows)).hostWindowIn j := by
  obtain ⟨hlen, -⟩ := List.getElem?_eq_some_iff.1 hk
  split
  next hj => exact State.hostWindowIn_of_row rfl (by simp [hj, hlen])
  next hj => simp [State.hostWindowIn, State.freeWindowIn, List.getElem?_set_ne (Ne.symm hj)]

/-- Settles O41: either replacement drives the cycle alike (`DrivesAlike`), since the Decoder takes no byte or the
instance's entry has `in_valid = 0`. -/
theorem untransferredDataIsIgnored : Obligations.UntransferredDataIsIgnored := by
  intro s row rows
  refine ⟨fun hx b => ?_, fun k x hk y => ?_⟩
  · exact DrivesAlike.step_congr (s := s.withSchedule (row :: rows))
      ⟨rfl, fun h => absurd h (by simp [hx]), rfl, fun _ => rfl, fun _ _ => rfl, rfl⟩
  · have hports := hostWindowIn_set_idle s rows hk y
    have hidle : (s.withSchedule (row :: rows)).hostWindowIn k = ⟨false, x⟩ := State.hostWindowIn_of_row rfl hk
    refine DrivesAlike.step_congr (s := s.withSchedule (row :: rows))
      ⟨rfl, fun _ => rfl, rfl, fun j => ?_, fun j hj => ?_, rfl⟩
    · rcases eq_or_ne j k with rfl | hne
      · exact (congrArg WindowIn.valid ((hports j).trans (if_pos rfl))).trans (congrArg WindowIn.valid hidle).symm
      · exact congrArg WindowIn.valid ((hports j).trans (if_neg hne))
    · have hne : j ≠ k := by
        rintro rfl
        simp [hidle] at hj
      exact congrArg WindowIn.data ((hports j).trans (if_neg hne))

end Sys2Proof.Machine
end

section
/-! PROOFS. The Decoder (41_decoder.md): what each operation does to every register (R105 to R109), what `st` and
`out_valid` become in every cycle (R110, R111), that leaving `Parsing` is for ever (R112, R119), and the value the
digits of a line leave in `acc` (R114). -/

namespace Sys2Proof.Machine

open Safety

/-! ### A byte the arbiter takes, and one it does not take (R101, R102) -/

section offered
variable {s : State}

theorem offeredCycle_taken (h : s.check = none) (hr : s.inReady = true) (tr : Bool) (a o : Word s.cfg.n)
    (st : DecoderState) :
    offeredCycle s tr a o st = .next { s with dec := s.dec.commit s.egReady tr a o st } := by
  rw [offeredCycle_eq h, if_pos hr]

theorem otherDraw_taken (h : s.check = none) (hr : s.inReady = true) :
    otherDraw s =
      .next
        { s with
          dec := s.dec.commit s.egReady false (Config.nondigitDraw s.cfg.n s.draws) s.dec.outData s.dec.st
          draws := s.draws + 1 } := by
  rw [otherDraw, if_pos hr, checked_of_admissible h]

theorem offeredCycle_untaken (hr : s.inReady = false) (tr : Bool) (a o : Word s.cfg.n) (st : DecoderState) :
    offeredCycle s tr a o st = holdCycle s := by
  simp [offeredCycle, hr]

theorem otherDraw_untaken (hr : s.inReady = false) : otherDraw s = holdCycle s := by
  simp [otherDraw, hr]

/-- R111 does not apply to a taken byte: the Decoder is `Parsing`, and the commit writes the values given to it. -/
theorem Decoder.commit_of_inReady (hr : s.inReady = true) (tr : Bool) (a o : Word s.cfg.n) (st : DecoderState) :
    s.dec.commit s.egReady tr a o st =
      { st := st, acc := a, outValid := tr || (s.dec.outValid && !s.egReady), outData := o } := by
  have hst : eofTransition s.dec.st (s.dec.outValid && s.egReady) st = st :=
    eofTransition_of_ne (by simp [st_of_inReady hr]) _ _
  rw [Decoder.commit, hst, outValidNext]

/-- Where the arbiter is ready no word stays pending: only a trigger sets `out_valid` (R101, R110). -/
theorem State.outValid_and_not_egReady_of_inReady (hr : s.inReady = true) :
    (s.dec.outValid && !s.egReady) = false := by
  by_contra hstall
  simp only [Bool.not_eq_false, Bool.and_eq_true, Bool.not_eq_true'] at hstall
  obtain ⟨hv, he⟩ := hstall
  simp [State.inReady_of_stalled hv he] at hr

end offered

/-! ### The operation a byte selects (R74) -/

theorem decodeByte_of_cls_sent {b : Byte} (h : cls b = .sent) : decodeByte b = .sent := by
  rw [decodeByte, h]

theorem decodeByte_of_cls_lf {b : Byte} (h : cls b = .lf) : decodeByte b = .lf := by
  rw [decodeByte, h]

theorem decodeByte_of_cls_digit {b : Byte} {d : BitVec 4} (h : cls b = .digit d) : decodeByte b = .digit d := by
  rw [decodeByte, h]

theorem decodeByte_ne_noxfer (b : Byte) : decodeByte b ≠ .noxfer := by
  unfold decodeByte
  split <;> nofun

/-- The Decoder's operation is `NOXFER` exactly where no byte transfers (R74, R102). -/
theorem State.decoderOp_eq_noxfer_iff (s : State) : s.decoderOp = .noxfer ↔ s.inXfer = false := by
  unfold State.decoderOp decodeCycle
  cases s.inXfer with
  | true => simp [decodeByte_ne_noxfer]
  | false => simp

/-- R101 and R102 as R109 names the cases. -/
theorem State.inXfer_eq_false_iff (s : State) :
    s.inXfer = false ↔ s.inValid = false ∨ s.dec.st ≠ .parsing ∨ (s.dec.outValid = true ∧ s.egReady = false) := by
  simp only [State.inXfer, State.inReady, Bool.and_eq_false_iff, decide_eq_false_iff_not, Bool.or_eq_false_iff,
    Bool.not_eq_false']
  tauto

/-! ### `OTHER` under `wrap` (R108) -/

/-- R108 without the subtraction, which wraps. -/
theorem foldByte_add_zeroByte {n : Nat} (acc : Word n) (b : Byte) :
    foldByte acc b + BitVec.ofNat n 0x30 = acc * radix n + b.setWidth n :=
  BitVec.sub_add_cancel _ _

theorem foldByte_toNat {n : Nat} (acc : Word n) (b : Byte) :
    ((foldByte acc b).toNat + 0x30) % 2 ^ n = (acc.toNat * 10 + b.toNat) % 2 ^ n := by
  have h := congrArg BitVec.toNat (foldByte_add_zeroByte acc b)
  simpa [radix, BitVec.toNat_add, BitVec.toNat_mul, Nat.add_mod, Nat.mul_mod] using h

/-! ### The operations (R105 to R109) -/

/-- Settles O8: the byte is of class `DIGIT`, and `accumulate_toNat` is R105's formula. -/
theorem digitAccumulates : Obligations.DigitAccumulates := by
  intro s b h hr hlow hhigh
  have hd : (BitVec.ofNat 4 (b.toNat - 0x30)).toNat = b.toNat - 0x30 :=
    Nat.mod_eq_of_lt (show b.toNat - 0x30 < 16 by omega)
  have hc : cls b = .digit (BitVec.ofNat 4 (b.toNat - 0x30)) := (cls_eq_digit_iff b _).2 ⟨hlow, hhigh, hd⟩
  refine ⟨accumulate s.dec.acc (BitVec.ofNat 4 (b.toNat - 0x30)), by rw [accumulate_toNat, hd], ?_⟩
  rw [decodeByte_of_cls_digit hc, exec, execDigit, offeredCycle_taken h hr, Decoder.commit_of_inReady hr,
    Bool.false_or]

/-- Settles O9: the byte is of class `LF`, whose commit raises the trigger. -/
theorem lfEmitsTheAccumulator : Obligations.LfEmitsTheAccumulator := by
  intro s b h hr hb
  rw [decodeByte_of_cls_lf ((cls_eq_lf_iff b).2 hb), exec, execLf, offeredCycle_taken h hr,
    Decoder.commit_of_inReady hr, Bool.true_or]

/-- Settles O10: the byte is of class `SENT`, whose commit raises the trigger and holds `acc`. -/
theorem sentinelEmitsTheEofWord : Obligations.SentinelEmitsTheEofWord := by
  intro s b h hr hb
  refine ⟨eofWord s.cfg.n, eofWord_toNat _, ?_⟩
  rw [decodeByte_of_cls_sent ((cls_eq_sent_iff b).2 hb), exec, execSent, offeredCycle_taken h hr,
    Decoder.commit_of_inReady hr, Bool.true_or]

/-- Settles O11: the two modes commit alike but for `acc`, a free value under `draw` and `foldByte` under
`wrap`. -/
theorem otherByteChangesOnlyTheAccumulator : Obligations.OtherByteChangesOnlyTheAccumulator := by
  intro s b h hr hc
  rw [decodeByte_other hc]
  refine ⟨fun hm => ⟨Config.nondigitDraw s.cfg.n s.draws, ?_⟩,
    fun hm => ⟨foldByte s.dec.acc b, foldByte_toNat _ _, ?_⟩⟩
  · simp only [exec, execOther, hm]
    rw [otherDraw_taken h hr, Decoder.commit_of_inReady hr, Bool.false_or]
  · simp only [exec, execOther, hm]
    rw [offeredCycle_taken h hr, Decoder.commit_of_inReady hr, Bool.false_or]

/-- Settles O12: no byte transfers in exactly R109's cases, and the commit of such a cycle writes what R110 and R111
say. -/
theorem noxferHolds : Obligations.NoxferHolds := by
  intro s h
  exact ⟨s.decoderOp_eq_noxfer_iff.trans s.inXfer_eq_false_iff, holdCycle_eq h⟩

/-- Settles O13: each of the byte operations holds where the arbiter is not ready. -/
theorem untakenByteActsAsNoxfer : Obligations.UntakenByteActsAsNoxfer := by
  intro s b hr
  show exec (decodeByte b) s = holdCycle s
  cases hc : cls b with
  | sent =>
    rw [decodeByte_of_cls_sent hc]
    exact offeredCycle_untaken hr _ _ _ _
  | lf =>
    rw [decodeByte_of_cls_lf hc]
    exact offeredCycle_untaken hr _ _ _ _
  | digit d =>
    rw [decodeByte_of_cls_digit hc]
    exact offeredCycle_untaken hr _ _ _ _
  | other =>
    rw [decodeByte_other hc]
    cases hm : s.cfg.nondigit with
    | draw => simp only [exec, execOther, hm, otherDraw_untaken hr]
    | wrap => simp only [exec, execOther, hm, offeredCycle_untaken hr]

/-! ### Every cycle (R110, R111) -/

/-- R107 and R111: the only writes of `st`. -/
theorem State.cycleDecoder_st (s : State) :
    s.cycleDecoder.st =
      eofTransition s.dec.st s.egXfer
        (if s.inXfer = true ∧ cls s.inData = .sent then .emitEOF else s.dec.st) := by
  cases hx : s.inXfer with
  | false =>
    rw [State.cycleDecoder_of_untaken hx]
    rfl
  | true =>
    cases hc : cls s.inData with
    | sent =>
      rw [State.cycleDecoder_of_sent hx hc]
      rfl
    | lf =>
      rw [State.cycleDecoder_of_lf hx hc]
      rfl
    | digit d =>
      rw [State.cycleDecoder_of_digit hx hc]
      rfl
    | other =>
      obtain ⟨a, ha⟩ := State.cycleDecoder_of_other hx hc
      rw [ha]
      rfl

/-- Settles O15 by `State.cycleDecoder_outValid`. -/
theorem outValidEveryCycle : Obligations.OutValidEveryCycle :=
  fun s h => ⟨s.after, step_eq h, s.cycleDecoder_outValid⟩

/-- Settles O16: `eofTransition` is R111's branch, and the sentinel's byte is the one of class `SENT`. -/
theorem stateTransitionsEveryCycle : Obligations.StateTransitionsEveryCycle := by
  intro s h
  refine ⟨s.after, step_eq h, ?_⟩
  have hst : s.after.dec.st = _ := s.cycleDecoder_st
  rw [hst, eofTransition]
  simp only [cls_eq_sent_iff]

/-! ### Outside `Parsing` (R112, R119) -/

/-- What every cycle keeps holds after any number of cycles. -/
theorem runFor_keeps {P : State → Prop} (hkeep : ∀ s : State, s.check = none → P s → P s.after) (k : Nat) {s : State}
    (h : s.check = none) (hP : P s) : ∃ t, runFor k s = .next t ∧ t.check = none ∧ P t := by
  induction k generalizing s with
  | zero => exact ⟨s, rfl, h, hP⟩
  | succ k ih =>
    obtain ⟨t, hrun, ht⟩ := ih (check_step h (step_eq h)) (hkeep s h hP)
    exact ⟨t, (runFor_succ h k).trans hrun, ht⟩

section left
variable {s : State}

theorem State.inReady_of_left (hst : s.dec.st ≠ .parsing) : s.inReady = false := by
  simp [State.inReady, hst]

theorem State.inXfer_of_left (hst : s.dec.st ≠ .parsing) : s.inXfer = false := by
  rw [State.inXfer, State.inReady_of_left hst, Bool.false_and]

theorem State.after_left (hst : s.dec.st ≠ .parsing) : s.after.dec.st ≠ .parsing := by
  rw [State.after, State.cycleDecoder_of_untaken (State.inXfer_of_left hst), Decoder.commit_st, ne_eq,
    eofTransition_self_eq_parsing_iff]
  exact hst

/-- The companion of `Decoder.commit_stalled` for `Finished`, whatever `eg_ready` is. -/
theorem Decoder.commit_finished {n : Nat} {c : Decoder n} (hst : c.st = .finished) (hv : c.outValid = false)
    (er : Bool) : c.commit er false c.acc c.outData c.st = c := by
  obtain ⟨st, acc, ov, od⟩ := c
  subst hst hv
  simp [Decoder.commit, eofTransition, outValidNext]

/-- R112: a cycle in `Finished` holds every register. -/
theorem State.cycleDecoder_of_finished (h : s.check = none) (hst : s.dec.st = .finished) : s.cycleDecoder = s.dec := by
  have hleft : s.dec.st ≠ .parsing := by simp [hst]
  rw [State.cycleDecoder_of_untaken (State.inXfer_of_left hleft),
    Decoder.commit_finished hst (outValid_of_finished h hst)]

end left

/-- A `Finished` Decoder with the values `a` in `acc` and `o` in `out_data`. -/
def FinishedWith (a o : Nat) (s : State) : Prop :=
  s.dec.st = .finished ∧ s.dec.acc.toNat = a ∧ s.dec.outData.toNat = o

theorem finishedWith_after {a o : Nat} (s : State) (h : s.check = none) (hf : FinishedWith a o s) :
    FinishedWith a o s.after := by
  obtain ⟨hst, hvalues⟩ := hf
  have hdec : s.after.dec = s.dec := State.cycleDecoder_of_finished h hst
  rw [FinishedWith, hdec]
  exact ⟨hst, hvalues⟩

/-- Settles O17: every cycle keeps `FinishedWith`, and in `Finished` nothing is pending and no byte is taken. -/
theorem finishedIsTerminal : Obligations.FinishedIsTerminal := by
  intro s k h hst
  obtain ⟨t, hrun, ht, hfin, hacc, hdata⟩ := runFor_keeps finishedWith_after k h ⟨hst, rfl, rfl⟩
  have hleft : t.dec.st ≠ .parsing := by simp [hfin]
  have hv : t.dec.outValid = false := outValid_of_finished ht hfin
  have heg : t.egXfer = false := by rw [State.egXfer, State.egValid, hv, Bool.false_and]
  exact ⟨t, hrun, hfin, hv, hacc, hdata, State.inReady_of_left hleft, heg,
    t.decoderOp_eq_noxfer_iff.2 (State.inXfer_of_left hleft)⟩

/-- Settles O21: a cycle outside `Parsing` takes no byte and so stays outside (`State.after_left`). -/
theorem noByteIsTakenAfterTheSentinel : Obligations.NoByteIsTakenAfterTheSentinel := by
  intro s k h hst
  obtain ⟨t, hrun, -, hleft⟩ :=
    runFor_keeps (P := fun t => t.dec.st ≠ .parsing) (fun _ _ hleft => State.after_left hleft) k h hst
  exact ⟨t, hrun, hleft, State.inReady_of_left hleft⟩

/-! ### The digits of a line (R114) -/

/-- The state after a digit of value `d` is taken. -/
abbrev State.afterDigit (s : State) (d : BitVec 4) : State :=
  { s with dec := s.dec.commit s.egReady false (accumulate s.dec.acc d) s.dec.outData s.dec.st }

section digits
variable {s : State}

theorem exec_digit_taken (h : s.check = none) (hr : s.inReady = true) (d : BitVec 4) :
    exec (.digit d) s = .next (s.afterDigit d) :=
  offeredCycle_taken h hr _ _ _ _

theorem check_afterDigit (h : s.check = none) (hr : s.inReady = true) (d : BitVec 4) :
    (s.afterDigit d).check = none := by
  obtain ⟨hcfg, -, -⟩ := (check_eq_none_iff s).1 h
  obtain ⟨-, hwf, -⟩ := (configOk_iff s).1 hcfg
  have hst := st_of_inReady hr
  have hreach : (s.afterDigit d).dec.reachable = true := by
    rw [State.afterDigit, hst]
    exact commit_parsing_reachable hst _ _ _ _
  exact check_congr h hreach rfl hwf

/-- After a digit the Decoder is `Parsing` and no word is pending, so the arbiter is ready whatever `eg_ready` is. -/
theorem inReady_afterDigit (hr : s.inReady = true) (d : BitVec 4) : (s.afterDigit d).inReady = true := by
  rw [State.inReady, State.afterDigit, Decoder.commit_of_inReady hr, State.outValid_and_not_egReady_of_inReady hr,
    st_of_inReady hr]
  rfl

end digits

/-- The number the digits `ds` write in decimal, most significant first. -/
def digitsValue (ds : List (Fin 10)) : Nat :=
  Nat.ofDigits 10 (ds.reverse.map fun d => d.val)

theorem digitsValue_cons (d : Fin 10) (ds : List (Fin 10)) :
    digitsValue (d :: ds) = d.val * 10 ^ ds.length + digitsValue ds := by
  rw [digitsValue, List.reverse_cons, List.map_append, Nat.ofDigits_append, List.length_map, List.length_reverse,
    List.map_singleton, Nat.ofDigits_singleton, digitsValue, Nat.add_comm, Nat.mul_comm]

theorem lineValue_eq (n : Nat) (ds : List (Fin 10)) : lineValue n ds = digitsValue ds % 2 ^ n := rfl

/-- One digit more at the front: what is in `acc` moves up by the digits that follow. -/
theorem accumulate_shift_mod (a d p v m : Nat) :
    ((a * 10 + d) % m * p + v) % m = (a * (p * 10) + (d * p + v)) % m := by
  have hmod : ((a * 10 + d) % m * p + v) ≡ ((a * 10 + d) * p + v) [MOD m] :=
    ((Nat.mod_modEq _ m).mul_right p).add_right v
  calc ((a * 10 + d) % m * p + v) % m = ((a * 10 + d) * p + v) % m := hmod
    _ = (a * (p * 10) + (d * p + v)) % m := by congr 1; ring

/-- The digits `ds` behind the value already in `acc`. -/
theorem runOps_digits (ds : List (Fin 10)) {s : State} (h : s.check = none) (hr : s.inReady = true) :
    ∃ t, runOps (ds.map fun d => .digit (BitVec.ofNat 4 d.val)) s = .next t ∧ t.cfg = s.cfg ∧ t.inReady = true ∧
      t.dec.acc.toNat = (s.dec.acc.toNat * 10 ^ ds.length + digitsValue ds) % 2 ^ s.cfg.n := by
  induction ds generalizing s with
  | nil => exact ⟨s, rfl, rfl, hr, by simp [digitsValue, Nat.mod_eq_of_lt s.dec.acc.isLt]⟩
  | cons d ds ih =>
    have hd : (BitVec.ofNat 4 d.val).toNat = d.val := Nat.mod_eq_of_lt (show d.val < 16 by omega)
    obtain ⟨t, hrun, hcfg, hready, hacc⟩ :=
      ih (check_afterDigit h hr (BitVec.ofNat 4 d.val)) (inReady_afterDigit hr _)
    refine ⟨t, (runOps_cons_of_next (exec_digit_taken h hr _) _).trans hrun, hcfg, hready, ?_⟩
    rw [hacc, Decoder.commit_acc, accumulate_toNat, hd, digitsValue_cons, List.length_cons, pow_succ]
    exact accumulate_shift_mod _ _ _ _ _

/-- Settles O22: `runOps_digits` from `acc = 0`. -/
theorem accumulatorLaw : Obligations.AccumulatorLaw := by
  intro s ds h hr hzero
  obtain ⟨t, hrun, hcfg, hready, hacc⟩ := runOps_digits ds h hr
  refine ⟨t, hrun, hcfg, hready, ?_⟩
  rw [hacc, hzero, Nat.zero_mul, Nat.zero_add, lineValue_eq]

end Sys2Proof.Machine
end

section
/-! PROOFS. The WindowCounter (42_window_counter.md): what a sample and an idle cycle do to every register (R147,
R148, R158), what the registers hold after a sequence of samples (R143 to R146, R154, R155), that the two readings
of the ramp agree when the first samples are back to back (R158, R211), and that the reset values of `d` and `prev`
reach no port (R157). -/

namespace Sys2Proof.Machine

open Safety

/-! ### One input of an instance (R147, R148) -/

/-- The registers after one input: a sample or none. -/
def Window.input {n : Nat} (m : RampAdvance) (v : Window n) : Option Nat → Window n
  | some x => v.accept m (BitVec.ofNat n x)
  | none => v.rest m

theorem Window.input_wellFormed {n : Nat} {v : Window n} (h : v.wellFormed = true) (m : RampAdvance)
    (x : Option Nat) : (v.input m x).wellFormed = true := by
  cases x with
  | some x => exact Window.accept_wellFormed h m _
  | none => exact Window.rest_wellFormed h m

/-- `s` with the registers `v` in instance `k`. -/
abbrev State.setWindow (s : State) (k : Nat) (v : Window s.cfg.n) : State :=
  { s with windows := s.windows.set k v }

section input
variable {s : State} {k : Nat} {v : Window s.cfg.n}

theorem State.setWindow_self (hk : s.windows[k]? = some v) : s.setWindow k v = s := by
  obtain ⟨-, rfl⟩ := List.getElem?_eq_some_iff.1 hk
  rw [State.setWindow, List.set_getElem_self]

theorem State.setWindow_getElem? (hk : s.windows[k]? = some v) (u : Window s.cfg.n) :
    (s.setWindow k u).windows[k]? = some u := by
  obtain ⟨hlt, -⟩ := List.getElem?_eq_some_iff.1 hk
  exact List.getElem?_set_self hlt

theorem windowCount_setWindow (hk : s.windows[k]? = some v) (u : Window s.cfg.n) :
    (s.setWindow k u).windowCount k = some u.count := by
  rw [State.windowCount, State.setWindow_getElem? hk, Option.map_some]

theorem windowValid_setWindow (hk : s.windows[k]? = some v) (u : Window s.cfg.n) :
    (s.setWindow k u).windowValid k = some u.valid := by
  rw [State.windowValid, State.setWindow_getElem? hk, Option.map_some]

theorem wellFormed_of_check (h : s.check = none) (hk : s.windows[k]? = some v) : v.wellFormed = true := by
  obtain ⟨hok, -, -⟩ := (check_eq_none_iff s).1 h
  obtain ⟨-, hwf, -⟩ := (configOk_iff s).1 hok
  exact hwf v (List.mem_of_getElem? hk)

theorem check_setWindow (h : s.check = none) {u : Window s.cfg.n} (hu : u.wellFormed = true) :
    (s.setWindow k u).check = none := by
  obtain ⟨hok, -, hreach⟩ := (check_eq_none_iff s).1 h
  obtain ⟨-, hwf, -⟩ := (configOk_iff s).1 hok
  refine check_congr h hreach List.length_set fun w hw => ?_
  rcases List.mem_or_eq_of_mem_set hw with hw | rfl
  · exact hwf w hw
  · exact hu

theorem exec_sample (h : s.check = none) (hk : s.windows[k]? = some v) (x : Nat) :
    exec (.sample k x) s = .next (s.setWindow k (v.accept s.cfg.ramp (BitVec.ofNat s.cfg.n x))) :=
  windowCycle_eq h hk _

theorem exec_idle (h : s.check = none) (hk : s.windows[k]? = some v) :
    exec (.idle k) s = .next (s.setWindow k (v.rest s.cfg.ramp)) :=
  windowCycle_eq h hk _

theorem exec_inputOp (h : s.check = none) (hk : s.windows[k]? = some v) (x : Option Nat) :
    exec (inputOp k x) s = .next (s.setWindow k (v.input s.cfg.ramp x)) := by
  cases x with
  | some x => exact exec_sample h hk x
  | none => exact exec_idle h hk

/-- A sequence of inputs of instance `k` folds them into its registers and touches nothing else. -/
theorem runOps_inputOps (h : s.check = none) (hk : s.windows[k]? = some v) (xs : List (Option Nat)) :
    runOps (inputOps k xs) s = .next (s.setWindow k (xs.foldl (Window.input s.cfg.ramp) v)) := by
  induction xs generalizing s with
  | nil => rw [List.foldl_nil, State.setWindow_self hk]; rfl
  | cons x xs ih =>
    have hc := check_setWindow (k := k) h (Window.input_wellFormed (wellFormed_of_check h hk) s.cfg.ramp x)
    calc runOps (inputOps k (x :: xs)) s
        = runOps (inputOps k xs) (s.setWindow k (v.input s.cfg.ramp x)) :=
          runOps_cons_of_next (exec_inputOp h hk x) _
      _ = _ := by
          rw [ih hc (State.setWindow_getElem? hk _), State.setWindow, List.set_set]
          rfl

end input

/-! ### The operations (R147, R148, R151, R158) -/

/-- Settles O25: the sample's commit is `Window.accept`; the chains by `getElem?_shiftIn`, the sum by
`windowSum_toNat` and the count by `countNext_toNat`. -/
theorem sampleUpdatesEveryRegister : Obligations.SampleUpdatesEveryRegister := by
  intro s k x v h hk hx
  obtain ⟨-, -, hr⟩ := (Window.wellFormed_iff v).1 (wellFormed_of_check h hk)
  have hgate : v.valid = true ↔ v.r[v.w - 1]? = some true := rampTop_iff hr
  refine ⟨_, exec_sample h hk x, rfl, rfl, length_shiftIn _ _, length_rampNext _ _ _,
    getElem?_shiftIn _ _, ?_, ?_, ?_⟩
  · rw [Window.accept_r, rampNext_true]
    exact getElem?_shiftIn _ _
  · rw [Window.accept_prev, windowSum_toNat, BitVec.toNat_ofNat, Nat.mod_eq_of_lt hx]
  · rw [Window.accept_count, countNext_toNat]
    exact if_congr (and_congr_left' hgate) rfl rfl

/-- Settles O26: by `sampleUpdatesEveryRegister` the count becomes `2^32` modulo `2^32`. -/
theorem counterWrapsToZero : Obligations.CounterWrapsToZero := by
  intro s k x v h hk hx hcount hgate hsum
  obtain ⟨u, hexec, -, -, -, -, -, -, hprev, hnext⟩ := sampleUpdatesEveryRegister s k x v h hk hx
  rw [hprev, if_pos ⟨hgate, hsum⟩, hcount] at hnext
  have hzero : u.count = 0 := BitVec.eq_of_toNat_eq hnext
  exact ⟨_, hexec, by rw [windowCount_setWindow hk, hzero]⟩

/-- Settles O27 by `Window.rest_onAccept`. -/
theorem idleHoldsEveryRegister : Obligations.IdleHoldsEveryRegister := by
  intro s k h hk hramp
  have hv := List.getElem?_eq_getElem hk
  rw [exec_idle h hv, hramp, Window.rest_onAccept, State.setWindow_self hv]

/-- Settles O28: the ramp shifts with slot 0 shifted in again. -/
theorem idleAdvancesTheRampPerCycle : Obligations.IdleAdvancesTheRampPerCycle := by
  intro s k v h hk hramp
  refine ⟨rampNext .perCycle false v.r, ?_, length_rampNext _ _ _, fun i hi => ?_⟩
  · rw [exec_idle h hk, hramp]
    rfl
  · have hhead : some (v.r.headD false || false) = v.r[0]? := by
      cases hr : v.r with
      | nil => simp [hr] at hi
      | cons b r => simp
    rw [← hhead]
    exact getElem?_shiftIn _ _ i hi

/-! ### A chain of registers after a sequence of shifts (R143, R144) -/

theorem shiftIn_take {α : Type} (x : α) {l : List α} {k : Nat} (h : k ≤ l.length) :
    shiftIn x (l.take k) = (x :: l).take k := by
  rw [shiftIn_eq_take, List.length_take, Nat.min_eq_left h]
  cases k with
  | zero => rfl
  | succ k => simp [List.take_take]

theorem shiftIn_replicate {α : Type} (k : Nat) (b : α) :
    shiftIn b (List.replicate k b) = List.replicate k b := by
  rw [shiftIn, ← List.replicate_succ, List.dropLast_replicate, Nat.add_sub_cancel]

/-! ### An instance after a sequence of samples -/

/-- The registers after the samples `xs`, in order; the reading of the ramp plays no part (`Window.accept_mode`). -/
def Window.samples {n : Nat} (xs : List Nat) (v : Window n) : Window n :=
  xs.foldl (fun v x => v.accept .onAccept (BitVec.ofNat n x)) v

section samples
variable {n : Nat} (xs : List Nat) (x : Nat) (v : Window n)

theorem Window.samples_concat :
    v.samples (xs ++ [x]) = (v.samples xs).accept .onAccept (BitVec.ofNat n x) :=
  List.foldl_concat _ _ _ _

@[simp] theorem Window.samples_w : (v.samples xs).w = v.w := by
  induction xs using List.reverseRecOn with
  | nil => rfl
  | append_singleton xs x ih => rw [Window.samples_concat, Window.accept_w, ih]

@[simp] theorem Window.samples_feed : (v.samples xs).feed = v.feed := by
  induction xs using List.reverseRecOn with
  | nil => rfl
  | append_singleton xs x ih => rw [Window.samples_concat, Window.accept_feed, ih]

/-- The delay chain holds the last samples, newest first, and then what it held before them. -/
theorem Window.samples_d :
    (v.samples xs).d = ((xs.map (BitVec.ofNat n)).reverse ++ v.d).take v.d.length := by
  induction xs using List.reverseRecOn with
  | nil => exact (List.take_length).symm
  | append_singleton xs x ih =>
    rw [Window.samples_concat, Window.accept_d, ih, shiftIn_take _ (by simp)]
    simp

/-- The ramp holds a 1 for each sample. -/
theorem Window.samples_r :
    (v.samples xs).r = (List.replicate xs.length true ++ v.r).take v.r.length := by
  induction xs using List.reverseRecOn with
  | nil => exact (List.take_length).symm
  | append_singleton xs x ih =>
    rw [Window.samples_concat, Window.accept_r, rampNext_true, ih, shiftIn_take _ (by simp), List.length_append,
      List.length_singleton, List.replicate_succ, List.cons_append]

/-- With `W` samples or more the ramp is full. -/
theorem Window.samples_r_of_full {xs : List Nat} {v : Window n} (hw : v.wellFormed = true) (hl : v.w ≤ xs.length) :
    (v.samples xs).r = List.replicate v.w true := by
  obtain ⟨-, -, hr⟩ := (Window.wellFormed_iff v).1 hw
  rw [Window.samples_r, hr, List.take_append_of_le_length (by simpa using hl), List.take_replicate,
    Nat.min_eq_left hl]

/-- R154: the gate opens with the `W`-th sample. -/
theorem Window.samples_valid {v : Window n} (hw : v.wellFormed = true) (hv : Fresh v) :
    (v.samples xs).valid = decide (v.w ≤ xs.length) := by
  obtain ⟨hpos, -, -⟩ := (Window.wellFormed_iff v).1 hw
  obtain ⟨hr, -⟩ := hv
  rcases Nat.lt_or_ge xs.length v.w with hlt | hge
  · have hlen : (v.samples xs).r.length = v.w := by simp [Window.samples_r, hr]
    have htop : (v.samples xs).r[v.w - 1]? = some false := by
      rw [Window.samples_r, hr, List.length_replicate, List.getElem?_take_of_lt (by omega),
        List.getElem?_append_right (by rw [List.length_replicate]; omega), List.length_replicate,
        List.getElem?_replicate_of_lt (by omega)]
    rw [decide_eq_false hlt.not_ge, Window.valid, Bool.eq_false_iff, ne_eq, rampTop_iff hlen, htop]
    simp
  · have htop : (List.replicate v.w true)[v.w - 1]? = some true := List.getElem?_replicate_of_lt (by omega)
    rw [decide_eq_true hge, Window.valid, Window.samples_r_of_full hw hge]
    exact (rampTop_iff List.length_replicate).2 htop

/-- The sum an accepted sample makes with the `W - 1` samples before it (R141), whatever `d` held at the start. -/
theorem Window.windowSum_samples {v : Window n} (hw : v.wellFormed = true) (hl : v.w ≤ xs.length + 1) :
    (windowSum (BitVec.ofNat n x) (v.samples xs).d).toNat = ((x :: xs.reverse).take v.w).sum % 2 ^ n := by
  obtain ⟨hpos, hd, -⟩ := (Window.wellFormed_iff v).1 hw
  have hchain : (v.samples xs).d = (xs.reverse.take (v.w - 1)).map (BitVec.ofNat n) := by
    rw [Window.samples_d, hd, List.take_append_of_le_length (by simp; omega), ← List.map_reverse, List.map_take]
  have hwords : ((xs.reverse.take (v.w - 1)).map (BitVec.ofNat n)).map BitVec.toNat =
      (xs.reverse.take (v.w - 1)).map (· % 2 ^ n) := by
    rw [List.map_map]
    exact List.map_congr_left fun y _ => BitVec.toNat_ofNat y n
  rw [windowSum_toNat, hchain, hwords, BitVec.toNat_ofNat, List.take_cons hpos, List.sum_cons, Nat.add_mod,
    ← List.sum_nat_mod, Nat.mod_mod, ← Nat.add_mod]

end samples

/-! ### The reference results, sample by sample (R155) -/

section sums
variable (n w : Nat) (xs : List Nat) (x : Nat)

theorem windowSums_of_short (h : xs.length < w) : windowSums n w xs = [] := by
  simp [windowSums, show xs.length + 1 - w = 0 by omega]

/-- A sample that fills a window adds the sum of that window, here read newest sample first. -/
theorem windowSums_concat (h : w ≤ xs.length + 1) :
    windowSums n w (xs ++ [x]) = windowSums n w xs ++ [((x :: xs.reverse).take w).sum % 2 ^ n] := by
  have hrange : (xs ++ [x]).length + 1 - w = xs.length + 1 - w + 1 := by
    rw [List.length_append, List.length_singleton]
    omega
  have hlast : (((xs ++ [x]).drop (xs.length + 1 - w)).take w).sum = ((x :: xs.reverse).take w).sum := by
    have hall : ((xs ++ [x]).drop (xs.length + 1 - w)).length ≤ w := by simp; omega
    rw [List.take_of_length_le hall, ← List.reverse_concat', List.take_reverse, List.sum_reverse,
      List.length_append, List.length_singleton]
  rw [windowSums, hrange, List.range_succ, List.map_append, List.map_singleton, hlast]
  congr 1
  refine List.map_congr_left fun j hj => ?_
  have hj := List.mem_range.1 hj
  rw [List.drop_append_of_le_length (by omega), List.take_append_of_le_length (by rw [List.length_drop]; omega)]

end sums

theorem increases_nil : increases [] = 0 := rfl

theorem increases_singleton (a : Nat) : increases [a] = 0 := rfl

theorem increases_cons_cons (a b : Nat) (l : List Nat) :
    increases (a :: b :: l) = increases (b :: l) + if a < b then 1 else 0 := by
  simp [increases, List.countP_cons]

/-- A further element counts when it exceeds the last. -/
theorem increases_concat {l : List Nat} {p : Nat} (h : l.getLast? = some p) (a : Nat) :
    increases (l ++ [a]) = increases l + if p < a then 1 else 0 := by
  induction l with
  | nil => simp at h
  | cons b l ih =>
    cases l with
    | nil =>
      obtain rfl : b = p := by simpa using h
      exact increases_cons_cons b a []
    | cons c l =>
      rw [List.getLast?_cons_cons] at h
      have hc := ih h
      rw [List.cons_append] at hc
      rw [List.cons_append, List.cons_append, increases_cons_cons, increases_cons_cons, hc]
      omega

/-! ### The count after a sequence of samples (R146, R155) -/

section count
variable {n : Nat} {v : Window n}

/-- Once the gate is open `prev` is the latest window's sum. -/
theorem Window.getLast?_windowSums (hw : v.wellFormed = true) {xs : List Nat} (hl : v.w ≤ xs.length) :
    (windowSums n v.w xs).getLast? = some (v.samples xs).prev.toNat := by
  obtain ⟨hpos, -, -⟩ := (Window.wellFormed_iff v).1 hw
  rcases List.eq_nil_or_concat xs with rfl | ⟨ys, y, rfl⟩
  · simp at hl
    omega
  · rw [List.concat_eq_append] at hl ⊢
    have hys : v.w ≤ ys.length + 1 := by simpa using hl
    rw [windowSums_concat _ _ _ _ hys, List.getLast?_concat, Window.samples_concat, Window.accept_prev,
      Window.windowSum_samples _ _ hw hys]

/-- While the gate is closed a sample makes at most the first window. -/
theorem increases_windowSums_of_closed (n w : Nat) {xs : List Nat} (h : xs.length < w) (x : Nat) :
    increases (windowSums n w (xs ++ [x])) = 0 := by
  rcases Nat.lt_or_ge (xs.length + 1) w with hlt | hge
  · rw [windowSums_of_short n w _ (by simpa using hlt), increases_nil]
  · rw [windowSums_concat n w xs x hge, windowSums_of_short n w xs h, List.nil_append, increases_singleton]

/-- R155 for samples alone: from a fresh instance, whatever its `d` and `prev`. -/
theorem Window.samples_count (hw : v.wellFormed = true) (hv : Fresh v) (xs : List Nat) :
    (v.samples xs).count.toNat = increases (windowSums n v.w xs) % 2 ^ 32 := by
  obtain ⟨hpos, -, -⟩ := (Window.wellFormed_iff v).1 hw
  have ⟨_, hzero⟩ := hv
  induction xs using List.reverseRecOn with
  | nil =>
    rw [windowSums_of_short n v.w [] hpos, increases_nil, Window.samples, List.foldl_nil, hzero]
    rfl
  | append_singleton xs x ih =>
    rw [Window.samples_concat, Window.accept_count, countNext_toNat, Window.samples_valid _ hw hv, ih]
    rcases Nat.lt_or_ge xs.length v.w with hlt | hge
    · rw [if_neg (by simp [hlt]), windowSums_of_short n v.w xs hlt, increases_windowSums_of_closed n v.w hlt,
        increases_nil]
    · have hfull : v.w ≤ xs.length + 1 := by omega
      rw [Window.windowSum_samples _ _ hw hfull, windowSums_concat _ _ _ _ hfull,
        increases_concat (Window.getLast?_windowSums hw hge)]
      simp only [decide_eq_true hge, true_and]
      split <;> simp

end count

/-! ### Samples and idle cycles (R155, R157) -/

/-- Where idle cycles change nothing, only the samples among the inputs matter. `P` says where: it holds at the start
and samples keep it. -/
theorem Window.foldl_input_of_rest {n : Nat} {m : RampAdvance} {P : Window n → Prop}
    (hrest : ∀ v, P v → v.rest m = v) (hkeep : ∀ v x, P v → P (v.accept m x)) (xs : List (Option Nat))
    {v : Window n} (hv : P v) : xs.foldl (Window.input m) v = v.samples (xs.filterMap id) := by
  induction xs generalizing v with
  | nil => rfl
  | cons x xs ih =>
    cases x with
    | some x =>
      rw [List.foldl_cons, Window.input, ih (hkeep v _ hv), Window.accept_mode _ _ m .onAccept]
      rfl
    | none =>
      rw [List.foldl_cons, Window.input, hrest v hv, ih hv]
      rfl

/-- Under the default reading that is everywhere (R148). -/
theorem Window.foldl_input_onAccept {n : Nat} (xs : List (Option Nat)) (v : Window n) :
    xs.foldl (Window.input .onAccept) v = v.samples (xs.filterMap id) :=
  Window.foldl_input_of_rest (P := fun _ => True) (fun v _ => Window.rest_onAccept v) (fun _ _ _ => trivial) xs trivial

/-- Settles O31: the inputs leave the instance as its samples alone do (`Window.foldl_input_onAccept`), with the
count of `Window.samples_count` and the gate of `Window.samples_valid`. -/
theorem countingLaw : Obligations.CountingLaw := by
  intro s k v xs h hramp hk hv
  have hw := wellFormed_of_check h hk
  have hrun := runOps_inputOps h hk xs
  rw [hramp, Window.foldl_input_onAccept] at hrun
  refine ⟨_, _, hrun, windowCount_setWindow hk _, Window.samples_count hw hv _, ?_⟩
  rw [windowValid_setWindow hk, Window.samples_valid _ hw hv]

/-! ### The two readings of the ramp (R144, R158, R211) -/

section readings
variable {n : Nat} (m : RampAdvance) {v : Window n}

/-- An idle cycle leaves a ramp of equal stages as it is, under either reading. -/
theorem Window.rest_of_uniform {j : Nat} {b : Bool} (hr : v.r = List.replicate j b) : v.rest m = v := by
  cases m with
  | onAccept => exact Window.rest_onAccept v
  | perCycle =>
    have hramp : rampNext .perCycle false v.r = v.r := by
      rw [hr]
      cases j with
      | zero => rfl
      | succ j => exact (congrArg (shiftIn · _) (Bool.or_false b)).trans (shiftIn_replicate _ _)
    rw [Window.rest, hramp]

theorem Window.foldl_input_replicate_none {j : Nat} {b : Bool} (hr : v.r = List.replicate j b) (a : Nat) :
    (List.replicate a none).foldl (Window.input m) v = v := by
  induction a with
  | zero => rfl
  | succ a ih => rw [List.replicate_succ, List.foldl_cons, Window.input, Window.rest_of_uniform m hr, ih]

theorem Window.foldl_input_map_some (xs : List Nat) :
    (xs.map some).foldl (Window.input m) v = v.samples xs := by
  rw [List.foldl_map, Window.samples]
  congr
  funext v x
  exact Window.accept_mode _ _ _ _

/-- Once the ramp is full it stays full, so idle cycles change nothing under either reading. -/
theorem Window.foldl_input_of_full {j : Nat} (hr : v.r = List.replicate j true) (xs : List (Option Nat)) :
    xs.foldl (Window.input m) v = v.samples (xs.filterMap id) := by
  refine Window.foldl_input_of_rest (P := fun v => v.r = List.replicate j true)
    (fun v hv => Window.rest_of_uniform m hv) (fun v x hv => ?_) xs hr
  rw [Window.accept_r, rampNext_true, hv, shiftIn_replicate]

/-- Idle cycles, then at least `W` samples on consecutive cycles or nothing after, then any inputs: the registers
are those the samples alone leave. -/
theorem Window.foldl_input_backToBack (hw : v.wellFormed = true) (hv : Fresh v) (a : Nat) {xs : List Nat}
    {rest : List (Option Nat)} (hl : v.w ≤ xs.length ∨ rest = []) :
    (List.replicate a none ++ xs.map some ++ rest).foldl (Window.input m) v =
      (v.samples xs).samples (rest.filterMap id) := by
  obtain ⟨hr, -⟩ := hv
  rw [List.foldl_append, List.foldl_append, Window.foldl_input_replicate_none m hr, Window.foldl_input_map_some]
  rcases hl with hl | rfl
  · exact Window.foldl_input_of_full m (Window.samples_r_of_full hw hl) rest
  · rfl

end readings

/-- Settles O32: both readings leave the instance with the registers of `Window.foldl_input_backToBack`. -/
theorem rampReadingsAgreeBackToBack : Obligations.RampReadingsAgreeBackToBack := by
  intro s k a v xs rest h hk hv hl
  have hw := wellFormed_of_check h hk
  have hrun (m : RampAdvance) :
      runOps (inputOps k (List.replicate a none ++ xs.map some ++ rest))
          { s with cfg := { s.cfg with ramp := m } } =
        .next
          { s with
            cfg := { s.cfg with ramp := m }
            windows := s.windows.set k ((v.samples xs).samples (rest.filterMap id)) } := by
    rw [← Window.foldl_input_backToBack m hw hv a hl]
    exact runOps_inputOps (s := { s with cfg := { s.cfg with ramp := m } }) h hk _
  exact ⟨_, _, hrun .onAccept, hrun .perCycle, rfl, rfl⟩

/-! ### Machines that differ in `d` and `prev` alone (R26, R28, R157) -/

/-- Two fresh instances of one size and feed, whatever their `d` and `prev` hold. -/
structure FreshPair {n : Nat} (v u : Window n) : Prop where
  wellFormed_left : v.wellFormed = true
  wellFormed_right : u.wellFormed = true
  fresh_left : Fresh v
  fresh_right : Fresh u
  w : u.w = v.w
  feed : u.feed = v.feed

/-- `v` and `u` have accepted the same samples since they were a `FreshPair`. -/
def SampledAlike {n : Nat} (v u : Window n) : Prop :=
  ∃ v₀ u₀ xs, FreshPair v₀ u₀ ∧ v = v₀.samples xs ∧ u = u₀.samples xs

namespace SampledAlike
variable {n : Nat} {v u : Window n}

theorem of_freshPair (h : FreshPair v u) : SampledAlike v u :=
  ⟨v, u, [], h, rfl, rfl⟩

theorem accept (h : SampledAlike v u) (x : Word n) :
    SampledAlike (v.accept .onAccept x) (u.accept .onAccept x) := by
  obtain ⟨v₀, u₀, xs, hfresh, rfl, rfl⟩ := h
  refine ⟨v₀, u₀, xs ++ [x.toNat], hfresh, ?_, ?_⟩ <;>
    rw [Window.samples_concat, BitVec.ofNat_toNat, BitVec.setWidth_eq]

theorem feed_eq (h : SampledAlike v u) : u.feed = v.feed := by
  obtain ⟨v₀, u₀, xs, hfresh, rfl, rfl⟩ := h
  rw [Window.samples_feed, Window.samples_feed, hfresh.feed]

/-- The count depends on the samples alone (R157). -/
theorem count_eq (h : SampledAlike v u) : u.count = v.count := by
  obtain ⟨v₀, u₀, xs, hfresh, rfl, rfl⟩ := h
  apply BitVec.eq_of_toNat_eq
  rw [Window.samples_count hfresh.wellFormed_left hfresh.fresh_left,
    Window.samples_count hfresh.wellFormed_right hfresh.fresh_right, hfresh.w]

/-- So does the gate. -/
theorem valid_eq (h : SampledAlike v u) : u.valid = v.valid := by
  obtain ⟨v₀, u₀, xs, hfresh, rfl, rfl⟩ := h
  rw [Window.samples_valid xs hfresh.wellFormed_left hfresh.fresh_left,
    Window.samples_valid xs hfresh.wellFormed_right hfresh.fresh_right, hfresh.w]

end SampledAlike

/-- `s` with other instances. -/
abbrev State.withWindows (s : State) (vs : List (Window s.cfg.n)) : State :=
  { s with windows := vs }

/-- The instances `vs` have sampled as those of `s` have, one by one. -/
def WindowsAlike (s : State) (vs : List (Window s.cfg.n)) : Prop :=
  ∀ k : Nat, Option.Rel SampledAlike s.windows[k]? vs[k]?

theorem map_eq_map_of_rel {α β : Type} {R : α → α → Prop} {f : α → β} (hf : ∀ a b, R a b → f b = f a)
    {x y : Option α} (h : Option.Rel R x y) : y.map f = x.map f := by
  cases h with
  | none => rfl
  | some h => exact congrArg some (hf _ _ h)

theorem windowsAlike_of_freshPairs {s : State} {vs : List (Window s.cfg.n)} (hlen : vs.length = s.windows.length)
    (h : ∀ (k : Nat) (v u : Window s.cfg.n), s.windows[k]? = some v → vs[k]? = some u → FreshPair v u) :
    WindowsAlike s vs := by
  intro k
  rcases Nat.lt_or_ge k vs.length with hk | hk
  · have hv := List.getElem?_eq_getElem (hlen ▸ hk)
    have hu := List.getElem?_eq_getElem hk
    rw [hv, hu]
    exact .some (.of_freshPair (h k _ _ hv hu))
  · rw [List.getElem?_eq_none hk, List.getElem?_eq_none (hlen ▸ hk)]
    exact .none

namespace WindowsAlike
variable {s : State} {vs : List (Window s.cfg.n)} (a : WindowsAlike s vs)
include a

theorem windowCount_eq (k : Nat) : (s.withWindows vs).windowCount k = s.windowCount k :=
  map_eq_map_of_rel (fun _ _ h => h.count_eq) (a k)

theorem windowValid_eq (k : Nat) : (s.withWindows vs).windowValid k = s.windowValid k :=
  map_eq_map_of_rel (fun _ _ h => h.valid_eq) (a k)

/-- The wire reads no register of an instance but its gate (R207). -/
theorem egReady_eq : (s.withWindows vs).egReady = s.egReady :=
  wireValue_congr (s := s.withWindows vs) (t := s) rfl rfl rfl a.windowValid_eq _

theorem inReady_eq : (s.withWindows vs).inReady = s.inReady := by
  simp only [State.inReady, a.egReady_eq]

theorem inXfer_eq : (s.withWindows vs).inXfer = s.inXfer := by
  rw [State.inXfer, a.inReady_eq]
  rfl

theorem cycleDecoder_eq : (s.withWindows vs).cycleDecoder = s.cycleDecoder := by
  simp only [State.cycleDecoder, a.inXfer_eq, a.egReady_eq]
  rfl

theorem cycleDraws_eq : (s.withWindows vs).cycleDraws = s.cycleDraws := by
  simp only [State.cycleDraws, a.inXfer_eq]
  rfl

theorem windowIn_eq (k : Nat) (feed : Feed) : (s.withWindows vs).windowIn k feed = s.windowIn k feed := by
  cases feed with
  | host => rfl
  | connector =>
    simp only [State.windowIn, State.connectorOut, a.egReady_eq]
    rfl

theorem cycleWindow (hramp : s.cfg.ramp = .onAccept) (k : Nat) {v u : Window s.cfg.n} (h : SampledAlike v u) :
    SampledAlike (s.cycleWindow k v) ((s.withWindows vs).cycleWindow k u) := by
  simp only [State.cycleWindow, h.feed_eq, a.windowIn_eq, hramp]
  split
  · exact h.accept _
  · simpa only [Window.rest_onAccept] using h

/-- The instances' part of one cycle. -/
theorem cycleWindows (hramp : s.cfg.ramp = .onAccept) :
    WindowsAlike s.after ((s.withWindows vs).cycleWindowsFrom 0 vs) := by
  intro k
  rw [s.after_getElem?, State.getElem?_cycleWindowsFrom, Nat.zero_add]
  have hk := a k
  revert hk
  cases s.windows[k]? <;> cases vs[k]? <;> intro hk <;> cases hk
  case none => exact .none
  case some h => exact .some (a.cycleWindow hramp k h)

theorem after_eq :
    (s.withWindows vs).after = s.after.withWindows ((s.withWindows vs).cycleWindowsFrom 0 vs) := by
  simp only [State.after, State.withWindows, a.cycleDecoder_eq, a.cycleDraws_eq]

end WindowsAlike

/-- Machines that differ in `d` and `prev` of fresh instances alone differ so after any number of cycles. -/
theorem runFor_withWindows (j : Nat) {s : State} {vs : List (Window s.cfg.n)} (h : s.check = none)
    (h' : (s.withWindows vs).check = none) (hramp : s.cfg.ramp = .onAccept) (a : WindowsAlike s vs) :
    ∃ t us, runFor j s = .next t ∧ runFor j (s.withWindows vs) = .next (t.withWindows us) ∧
      WindowsAlike t us := by
  induction j generalizing s with
  | zero => exact ⟨s, vs, rfl, rfl, a⟩
  | succ j ih =>
    have hnext := check_step h' (step_eq h')
    rw [a.after_eq] at hnext
    rw [runFor_succ h, runFor_succ h', a.after_eq]
    exact ih (check_step h (step_eq h)) hnext hramp (a.cycleWindows hramp)

/-- The hypotheses of R157's claim, instance by instance. -/
theorem freshPair_of_agree {n : Nat} {v u : Window n} (hwf : v.wellFormed = true) (hv : Fresh v) (hw : u.w = v.w)
    (hfeed : u.feed = v.feed) (hr : u.r = v.r) (hcount : u.count = v.count) (hd : u.d.length = v.d.length) :
    FreshPair v u := by
  have ⟨hvr, hvc⟩ := hv
  obtain ⟨hpos, hvd, hvl⟩ := (Window.wellFormed_iff v).1 hwf
  refine ⟨hwf, (Window.wellFormed_iff u).2 ⟨?_, ?_, ?_⟩, hv, ⟨?_, ?_⟩, hw, hfeed⟩
  · rwa [hw]
  · rw [hd, hw, hvd]
  · rw [hr, hw, hvl]
  · rw [hr, hw, hvr]
  · rw [hcount, hvc]

/-- Settles O33: the two machines start with `FreshPair`s, stay `WindowsAlike` (`runFor_withWindows`), and such
machines agree in every output. -/
theorem undecidedResetValuesAreUnobservable : Obligations.UndecidedResetValuesAreUnobservable := by
  intro s vs j h hramp hfresh hlen hagree
  obtain ⟨hok, -, hreach⟩ := (check_eq_none_iff s).1 h
  have hpair : ∀ (k : Nat) (v u : Window s.cfg.n), s.windows[k]? = some v → vs[k]? = some u → FreshPair v u := by
    intro k v u hv hu
    obtain ⟨hw, hfeed, hr, hcount, hd⟩ := hagree k v u hv hu
    exact freshPair_of_agree (wellFormed_of_check h hv) (hfresh v (List.mem_of_getElem? hv)) hw hfeed hr hcount hd
  have hwf : ∀ u ∈ vs, u.wellFormed = true := by
    intro u hu
    obtain ⟨k, hk, rfl⟩ := List.getElem_of_mem hu
    exact (hpair k _ _ (List.getElem?_eq_getElem (hlen ▸ hk)) (List.getElem?_eq_getElem hk)).wellFormed_right
  have h' : (s.withWindows vs).check = none := check_congr h hreach hlen hwf
  obtain ⟨t, us, hrun, hrun', halike⟩ := runFor_withWindows j h h' hramp (windowsAlike_of_freshPairs hlen hpair)
  exact ⟨t, t.withWindows us, hrun, hrun',
    fun k => ⟨(halike.windowCount_eq k).symm, (halike.windowValid_eq k).symm⟩,
    halike.inReady_eq.symm, rfl, rfl⟩

end Sys2Proof.Machine
end

section
/-! PROOFS. Bad outcomes (60_exceptions.md): which cycles are refused and for which reasons (R187), and the refusal
of an operation for a missing instance (R189). -/

namespace Sys2Proof.Machine

/-! ### Refused cycles (R187) -/

/-- Each of `check`'s refusals, in the order in which it looks for them. -/
theorem check_reason {s : State} {why : Refusal} (h : s.check = some why) :
    why = .illFormedConfiguration ∨ why = .combinationalLoop ∨ why = .unreachableState := by
  unfold State.check at h
  split at h
  · exact .inl (Option.some.inj h).symm
  split at h
  · exact .inr (.inl (Option.some.inj h).symm)
  split at h
  · exact .inr (.inr (Option.some.inj h).symm)
  · cases h

/-- R113: a cycle has a next state in the admissible states, and in no others. -/
theorem step_next_iff (s : State) : (∃ t, step s = .next t) ↔ s.check = none := by
  constructor
  · rintro ⟨t, ht⟩
    cases hc : s.check with
    | none => rfl
    | some why => cases (step_refused hc).symm.trans ht
  · exact fun h => ⟨s.after, step_eq h⟩

/-- Settles O36 by `step_next_iff`, `step_refused` and `check_reason`. -/
theorem stepRefusesOnlyInadmissibleStates : Obligations.StepRefusesOnlyInadmissibleStates :=
  fun s => ⟨step_next_iff s, fun _ h => ⟨step_refused h, check_reason h⟩⟩

/-! ### A missing instance (R189) -/

/-- Settles O30: both operations are a cycle of instance `k`, which `windowCycle_none` refuses where there is
none. -/
theorem missingInstanceIsRefused : Obligations.MissingInstanceIsRefused := by
  intro s k x h hk
  have hnone : s.windows[k]? = none := List.getElem?_eq_none hk
  exact ⟨windowCycle_none h hnone _, windowCycle_none h hnone _⟩

end Sys2Proof.Machine
end

section
/-! PROOFS. The hazards and the wiring (70_reset_and_hazards.md): which compositions close a combinational loop
(R205), and what the connector of R207 (b) gives a WindowCounter. -/

namespace Sys2Proof.Machine

/-! ### The combinational loop (R205) -/

theorem check_of_readsInReady {s : State} (hok : s.configOk = true) (hloop : readsInReady s.cfg.ready = true) :
    s.check = some .combinationalLoop := by
  simp [State.check, hok, hloop]

/-- Settles O38: a loop fails the check, and a failed check refuses the cycle and every operation; the wires have no
other way to `st` or `acc` (`wireValue_congr`). -/
theorem combinationalLoopIsRefused : Obligations.CombinationalLoopIsRefused := by
  intro s hok
  refine ⟨fun hloop => ?_, fun _ st a => ?_⟩
  · have hc : s.check = some .combinationalLoop := check_of_readsInReady hok hloop
    exact ⟨step_refused hc, exec_refused hc⟩
  · exact wireValue_congr (s := { s with dec := { s.dec with st := st, acc := a } }) (t := s)
      rfl rfl rfl (fun _ => rfl) _

/-! ### The connector (R207 (b)) -/

section connector
variable {s : State}

theorem State.connectorOut_valid_iff (s : State) :
    s.connectorOut.valid = true ↔ s.dec.outValid = true ∧ s.egReady = true ∧ s.dec.st ≠ .emitEOF := by
  simp [State.connectorOut, State.egValid, and_assoc]

/-- With a word pending the data port shows it (R100). -/
theorem State.connectorOut_data (hv : s.dec.outValid = true) : s.connectorOut.data = s.dec.outData :=
  if_pos hv

theorem State.windowOp_connector (s : State) (k : Nat) :
    s.windowOp k .connector = decodeSample k s.connectorOut.valid s.connectorOut.data.toNat := rfl

/-- Settles O42: the connector's `valid` is the statement's condition, under which its data is `out_data`. -/
theorem connectorFiltersTheEofWord : Obligations.ConnectorFiltersTheEofWord := by
  intro s k
  rw [State.windowOp_connector]
  split
  next h =>
    have ⟨hv, _, _⟩ := h
    rw [s.connectorOut_valid_iff.2 h, State.connectorOut_data hv, decodeSample_true]
  next h => rw [Bool.eq_false_iff.2 (mt s.connectorOut_valid_iff.1 h), decodeSample_false]

end connector

end Sys2Proof.Machine
end

section
/-! PROOFS. Streams of the grammar (R78): the words their bytes stand for, and that a Decoder whose host never pauses
decodes one in a cycle for each byte and one for the EOF word (R115, R213). -/

namespace Sys2Proof.Machine

open Safety

/-! ### The bytes of a stream (R78) -/

theorem plain_of_cls_ne_other {b : Byte} (h : cls b ≠ .other) : Plain b := by
  rw [ne_eq, cls_eq_other_iff] at h
  unfold Plain
  tauto

theorem cls_digitByte (d : Fin 10) : cls (BitVec.ofNat 8 (0x30 + d.val)) = .digit (BitVec.ofNat 4 d.val) := by
  revert d
  decide

theorem cls_of_mem_lineBytes {b : Byte} {ds : List (Fin 10)} (h : b ∈ lineBytes ds) :
    cls b = .lf ∨ ∃ d, cls b = .digit d := by
  rw [lineBytes, List.mem_append, List.mem_map, List.mem_singleton] at h
  rcases h with ⟨d, -, rfl⟩ | rfl
  · exact .inr ⟨_, cls_digitByte d⟩
  · exact .inl (by decide)

/-- No line holds the sentinel or a byte outside the grammar. -/
theorem cls_of_mem_lines {b : Byte} {lines : List (List (Fin 10))} (h : b ∈ lines.flatMap lineBytes) :
    cls b ≠ .sent ∧ cls b ≠ .other := by
  obtain ⟨ds, -, hb⟩ := List.mem_flatMap.1 h
  rcases cls_of_mem_lineBytes hb with hc | ⟨d, hc⟩ <;> simp [hc]

theorem plain_of_mem_streamBytes (lines : List (List (Fin 10))) : ∀ b ∈ streamBytes lines, Plain b := by
  intro b hb
  rw [streamBytes, List.mem_append, List.mem_singleton] at hb
  rcases hb with hb | rfl
  · exact plain_of_cls_ne_other (cls_of_mem_lines hb).2
  · exact .inl rfl

/-! ### The words of a stream (R52, R114, R116) -/

section words
variable (n : Nat)

/-- Digits behind the value `a` already read. -/
theorem streamWords_digits (ds : List (Fin 10)) (bs : List Byte) {a : Nat} (ha : a < 2 ^ n) :
    streamWords n a (ds.map (fun d => BitVec.ofNat 8 (0x30 + d.val)) ++ bs) =
      streamWords n ((a * 10 ^ ds.length + digitsValue ds) % 2 ^ n) bs := by
  induction ds generalizing a with
  | nil => simp [digitsValue, Nat.mod_eq_of_lt ha]
  | cons d ds ih =>
    have hd : (BitVec.ofNat 4 d.val).toNat = d.val := Nat.mod_eq_of_lt (show d.val < 16 by omega)
    rw [List.map_cons, List.cons_append, streamWords_digit _ _ _ (cls_digitByte d), hd,
      ih (Nat.mod_lt _ (Nat.two_pow_pos n)), digitsValue_cons, List.length_cons, pow_succ, accumulate_shift_mod]

theorem streamWords_lineBytes (ds : List (Fin 10)) (bs : List Byte) :
    streamWords n 0 (lineBytes ds ++ bs) = lineValue n ds :: streamWords n 0 bs := by
  have hlf : cls (0x0A : Byte) = .lf := by decide
  rw [lineBytes, List.append_assoc, streamWords_digits n ds _ (Nat.two_pow_pos n), List.singleton_append,
    streamWords_lf _ _ _ hlf, Nat.zero_mul, Nat.zero_add, lineValue_eq]

theorem streamWords_streamBytes (lines : List (List (Fin 10))) :
    streamWords n 0 (streamBytes lines) = lines.map (lineValue n) ++ [2 ^ n - 1] := by
  induction lines with
  | nil => exact streamWords_sent n 0 [] (by decide)
  | cons ds lines ih =>
    have hcons : streamBytes (ds :: lines) = lineBytes ds ++ streamBytes lines := by simp [streamBytes]
    rw [hcons, streamWords_lineBytes, ih, List.map_cons, List.cons_append]

end words

/-- From reset the outstanding words are those of the stream. -/
theorem outstanding_streamBytes {s : State} (hreset : s.dec = Decoder.reset s.cfg.n)
    (lines : List (List (Fin 10))) :
    outstanding s (streamBytes lines) = lines.map (lineValue s.cfg.n) ++ [2 ^ s.cfg.n - 1] := by
  have hst : s.dec.st = .parsing := by rw [hreset, Decoder.reset]
  have hzero : s.dec.acc.toNat = 0 := by rw [hreset, Decoder.reset]; exact BitVec.toNat_zero
  have hpending : pending s = [] := by rw [pending, hreset]; rfl
  rw [outstanding_eq, hpending, undecoded_of_parsing hst, hzero, streamWords_streamBytes, List.nil_append]

/-! ### A host's run, taken apart (R95; log 22) -/

section run
variable {s t : State} {bs rest : List Byte} {turn : Turn} {turns : List Turn} {ws : List Nat}

theorem hostRun_cons_of_after (h : s.check = none)
    (hrun : hostRun turns (leftover bs turn s) (offer bs turn s).after = some (ws, rest, t)) :
    hostRun (turn :: turns) bs s = some (transferred (offer bs turn s) ++ ws, rest, t) := by
  rw [hostRun_cons h, hrun, Option.map_some]

theorem hostRun_cons_eq_some (h : s.check = none) (hrun : hostRun (turn :: turns) bs s = some (ws, rest, t)) :
    ∃ ws', hostRun turns (leftover bs turn s) (offer bs turn s).after = some (ws', rest, t) ∧
      ws = transferred (offer bs turn s) ++ ws' := by
  rw [hostRun_cons h, Option.map_eq_some_iff] at hrun
  obtain ⟨⟨ws', rest', t'⟩, hrun', heq⟩ := hrun
  cases heq
  exact ⟨ws', hrun', rfl⟩

theorem check_after_offer (h : s.check = none) (bs : List Byte) (turn : Turn) :
    (offer bs turn s).after.check = none :=
  check_step (s := offer bs turn s) h (step_eq h)

theorem check_of_hostRun (h : s.check = none) (hrun : hostRun turns bs s = some (ws, rest, t)) :
    t.check = none := by
  induction turns generalizing s bs ws with
  | nil =>
    cases hrun
    exact h
  | cons turn turns ih =>
    obtain ⟨ws', hrun', -⟩ := hostRun_cons_eq_some h hrun
    exact ih (check_after_offer h bs turn) hrun'

/-- In `Finished` nothing is pending and nothing is decoded any more (R112, R119). -/
theorem outstanding_of_finished (h : s.check = none) (hst : s.dec.st = .finished) (bs : List Byte) :
    outstanding s bs = [] := by
  have hleft : s.dec.st ≠ .parsing := by simp [hst]
  rw [outstanding_eq, undecoded_of_left hleft, pending, outValid_of_finished h hst]
  rfl

/-- A run of a stream that has reached `Finished` has delivered all of the stream's words. -/
theorem words_of_finished {lines : List (List (Fin 10))} (h : s.check = none)
    (hreset : s.dec = Decoder.reset s.cfg.n) (hrun : hostRun turns (streamBytes lines) s = some (ws, rest, t))
    (hfin : t.dec.st = .finished) : ws = lines.map (lineValue s.cfg.n) ++ [2 ^ s.cfg.n - 1] := by
  obtain ⟨ws', rest', t', hrun', hout, -⟩ :=
    roundTripUnderBackpressure s (streamBytes lines) turns h (plain_of_mem_streamBytes lines)
  cases hrun.symm.trans hrun'
  rw [outstanding_of_finished (check_of_hostRun h hrun) hfin, List.append_nil] at hout
  rw [← hout, outstanding_streamBytes hreset]

end run

/-! ### A host that never pauses (R115, R213) -/

section throughput
variable {s : State} (hready : ReadyWhenHostIs s)
include hready

theorem egReady_offer_ready (bs : List Byte) : (offer bs ⟨true, true⟩ s).egReady = true :=
  hready (offer bs ⟨true, true⟩ s) rfl rfl

/-- A `Parsing` Decoder takes the byte of every cycle. -/
theorem inXfer_offer_ready (hst : s.dec.st = .parsing) (b : Byte) (bs : List Byte) :
    (offer (b :: bs) ⟨true, true⟩ s).inXfer = true := by
  rw [State.inXfer, State.inReady, egReady_offer_ready hready, offer_dec, hst, offer_inValid]
  simp

/-- One such cycle at the front of a run. -/
theorem hostRun_alwaysOn_cons (h : s.check = none) (hst : s.dec.st = .parsing) {b : Byte} {bs rest : List Byte}
    {k : Nat} {ws : List Nat} {t : State}
    (hrun : hostRun (alwaysOn k) bs (offer (b :: bs) ⟨true, true⟩ s).after = some (ws, rest, t)) :
    hostRun (alwaysOn (k + 1)) (b :: bs) s =
      some (transferred (offer (b :: bs) ⟨true, true⟩ s) ++ ws, rest, t) := by
  have hleft : leftover (b :: bs) ⟨true, true⟩ s = bs := by
    rw [leftover, if_pos (inXfer_offer_ready hready hst b bs), List.tail_cons]
  exact hostRun_cons_of_after h (hleft.symm ▸ hrun)

theorem st_after_offer_ready (hst : s.dec.st = .parsing) (b : Byte) (bs : List Byte) :
    (offer (b :: bs) ⟨true, true⟩ s).after.dec.st = if cls b = .sent then .emitEOF else .parsing := by
  have hnext : (offer (b :: bs) ⟨true, true⟩ s).after.dec.st = _ := State.cycleDecoder_st _
  rw [hnext, eofTransition_of_ne (by rw [offer_dec, hst]; nofun), inXfer_offer_ready hready hst, offer_inData,
    offer_dec, hst]
  simp

/-- The EOF word transfers in the cycle after the sentinel (R111). -/
theorem st_after_offer_emitEOF (h : s.check = none) (hst : s.dec.st = .emitEOF) :
    (offer [] ⟨true, true⟩ s).after.dec.st = .finished := by
  have heg : (offer [] ⟨true, true⟩ s).egXfer = true := by
    rw [State.egXfer, State.egValid, offer_dec, outValid_of_emitEOF h hst, egReady_offer_ready hready]
    rfl
  have hnext : (offer [] ⟨true, true⟩ s).after.dec.st = _ := State.cycleDecoder_st _
  rw [hnext, heg, eofTransition, if_pos ⟨hst, rfl⟩]

theorem hostRun_emitEOF (h : s.check = none) (hst : s.dec.st = .emitEOF) :
    ∃ ws t, hostRun (alwaysOn 1) [] s = some (ws, [], t) ∧ t.dec.st = .finished := by
  have hleft : leftover [] ⟨true, true⟩ s = [] := by simp [leftover]
  refine ⟨_, _, hostRun_cons_of_after (ws := []) h ?_, st_after_offer_emitEOF hready h hst⟩
  rw [hleft]
  rfl

/-- A byte is taken in every cycle up to the sentinel, and the EOF word transfers in the next. -/
theorem hostRun_alwaysOn (h : s.check = none) (hst : s.dec.st = .parsing) {bs : List Byte}
    (hbs : ∀ b ∈ bs, cls b ≠ .sent) :
    ∃ ws t, hostRun (alwaysOn ((bs ++ [0x00]).length + 1)) (bs ++ [0x00]) s = some (ws, [], t) ∧
      t.dec.st = .finished := by
  induction bs generalizing s with
  | nil =>
    have hsent : (offer [0x00] ⟨true, true⟩ s).after.dec.st = .emitEOF :=
      (st_after_offer_ready hready hst 0x00 []).trans (if_pos (by decide))
    obtain ⟨ws, t, hrun, hfin⟩ := hostRun_emitEOF
      (s := (offer [0x00] ⟨true, true⟩ s).after) hready (check_after_offer h _ _) hsent
    exact ⟨_, t, hostRun_alwaysOn_cons hready h hst hrun, hfin⟩
  | cons b bs ih =>
    have hstay : (offer (b :: (bs ++ [0x00])) ⟨true, true⟩ s).after.dec.st = .parsing :=
      (st_after_offer_ready hready hst b _).trans (if_neg (hbs b List.mem_cons_self))
    obtain ⟨ws, t, hrun, hfin⟩ := ih (s := (offer (b :: (bs ++ [0x00])) ⟨true, true⟩ s).after) hready
      (check_after_offer h _ _) hstay fun c hc => hbs c (List.mem_cons_of_mem b hc)
    exact ⟨_, t, hostRun_alwaysOn_cons hready h hst hrun, hfin⟩

end throughput

/-- Settles O24: by `hostRun_alwaysOn` the run takes every byte and ends in `Finished`, and such a run has delivered
the stream's words. -/
theorem streamIsDecodedAtFullThroughput : Obligations.StreamIsDecodedAtFullThroughput := by
  intro s lines h hready hreset
  have hst : s.dec.st = .parsing := by rw [hreset, Decoder.reset]
  obtain ⟨ws, t, hrun, hfin⟩ := hostRun_alwaysOn hready h hst fun b hb => (cls_of_mem_lines (lines := lines) hb).1
  exact ⟨t, words_of_finished h hreset hrun hfin ▸ hrun, hfin⟩

end Sys2Proof.Machine
end

section
/-! PROOFS. Bytes to count (R155, R207): a connector-fed instance samples the words its Decoder delivers, all but the
EOF word, and so holds the number of increases among the sums of the stream's values. -/

namespace Sys2Proof.Machine

open Safety

/-! ### One cycle of a connector-fed instance (R147, R148, R207 (b)) -/

/-- The word the connector passes on this cycle. -/
def connected (s : State) : List Nat :=
  if s.connectorOut.valid then [s.dec.outData.toNat] else []

section cycle
variable {s : State}

theorem connected_of_ne_emitEOF (hst : s.dec.st ≠ .emitEOF) : connected s = transferred s := by
  simp [connected, transferred, State.connectorOut, State.egXfer, hst]

theorem connected_of_emitEOF (hst : s.dec.st = .emitEOF) : connected s = [] := by
  simp [connected, State.connectorOut, hst]

theorem transferred_of_finished (h : s.check = none) (hst : s.dec.st = .finished) : transferred s = [] := by
  simp [transferred, State.egXfer, State.egValid, outValid_of_finished h hst]

theorem State.cycleWindow_of_connector {v : Window s.cfg.n} (hramp : s.cfg.ramp = .onAccept)
    (hfeed : v.feed = .connector) (k : Nat) : s.cycleWindow k v = v.samples (connected s) := by
  rw [State.cycleWindow, hfeed, connected, hramp]
  show (if s.connectorOut.valid = true then v.accept .onAccept s.connectorOut.data else v.rest .onAccept) = _
  split
  next hc =>
    obtain ⟨hv, -, -⟩ := s.connectorOut_valid_iff.1 hc
    rw [State.connectorOut_data hv, Window.samples, List.foldl_cons, List.foldl_nil, BitVec.ofNat_toNat,
      BitVec.setWidth_eq]
  next => exact Window.rest_onAccept v

end cycle

theorem Window.samples_append {n : Nat} (xs ys : List Nat) (v : Window n) :
    v.samples (xs ++ ys) = (v.samples xs).samples ys :=
  List.foldl_append

/-! ### A run of a connector-fed instance -/

/-- What a run from `st` to `st'` that transfers the words `ws` passes on through the connector, `xs`: nothing from
`Finished`, and all but the last word where it reaches `Finished`. -/
structure PassesOn (st st' : DecoderState) (ws xs : List Nat) : Prop where
  fromFinished : st = .finished → ws = [] ∧ xs = []
  toFinished : st ≠ .finished → st' = .finished → ∃ e, ws = xs ++ [e]

/-- A cycle at the front of a run. -/
theorem passesOn_cons {s : State} {st : DecoderState} {ws xs : List Nat} (h : s.check = none)
    (hp : PassesOn s.after.dec.st st ws xs) :
    PassesOn s.dec.st st (transferred s ++ ws) (connected s ++ xs) := by
  obtain ⟨hfrom, hto⟩ := hp
  have hnext : s.after.dec.st = _ := s.cycleDecoder_st
  cases hst : s.dec.st with
  | parsing =>
    have hne : s.after.dec.st ≠ .finished := by
      rw [hnext, hst, eofTransition_of_ne (by decide)]
      split <;> decide
    refine ⟨nofun, fun _ hfin => ?_⟩
    obtain ⟨e, rfl⟩ := hto hne hfin
    exact ⟨e, by rw [connected_of_ne_emitEOF (by simp [hst]), List.append_assoc]⟩
  | emitEOF =>
    refine ⟨nofun, fun _ hfin => ?_⟩
    rw [connected_of_emitEOF hst, List.nil_append]
    have hx : s.inXfer = false := State.inXfer_of_left (by simp [hst])
    rw [hst, hx] at hnext
    cases heg : s.egXfer with
    | true =>
      obtain ⟨rfl, rfl⟩ := hfrom (by rw [hnext, heg]; rfl)
      exact ⟨_, by rw [transferred, if_pos heg]; rfl⟩
    | false =>
      obtain ⟨e, rfl⟩ := hto (by rw [hnext, heg]; nofun) hfin
      exact ⟨e, by rw [transferred, heg]; rfl⟩
  | finished =>
    have hstay : s.after.dec.st = .finished := by
      rw [show s.after.dec = s.dec from State.cycleDecoder_of_finished h hst, hst]
    obtain ⟨rfl, rfl⟩ := hfrom hstay
    refine ⟨fun _ => ?_, fun hne => absurd rfl hne⟩
    rw [connected_of_ne_emitEOF (by simp [hst]), transferred_of_finished h hst]
    exact ⟨rfl, rfl⟩

/-- Over a run a connector-fed instance samples the words that are passed on, and nothing else. -/
theorem windowCount_of_hostRun {turns : List Turn} {s t : State} {bs rest : List Byte} {ws : List Nat} {k : Nat}
    {v : Window s.cfg.n} (h : s.check = none) (hramp : s.cfg.ramp = .onAccept) (hk : s.windows[k]? = some v)
    (hfeed : v.feed = .connector) (hrun : hostRun turns bs s = some (ws, rest, t)) :
    ∃ xs, t.windowCount k = some (v.samples xs).count ∧ PassesOn s.dec.st t.dec.st ws xs := by
  induction turns generalizing s bs ws with
  | nil =>
    cases hrun
    exact ⟨[], by rw [State.windowCount, hk]; rfl, fun _ => ⟨rfl, rfl⟩, fun hne hfin => absurd hfin hne⟩
  | cons turn turns ih =>
    obtain ⟨ws', hrun', rfl⟩ := hostRun_cons_eq_some h hrun
    have hwin : (offer bs turn s).after.windows[k]? = some (v.samples (connected (offer bs turn s))) := by
      rw [State.after_getElem?, offer_windows, hk, Option.map_some,
        State.cycleWindow_of_connector (s := offer bs turn s) hramp hfeed]
    obtain ⟨xs, hcount, hpass⟩ :=
      ih (check_after_offer h bs turn) hramp hwin (by rw [Window.samples_feed, hfeed]) hrun'
    refine ⟨connected (offer bs turn s) ++ xs, ?_, passesOn_cons (s := offer bs turn s) h hpass⟩
    rw [Window.samples_append, hcount]

/-- Settles O46: a run that reaches `Finished` has delivered the stream's words (`words_of_finished`), of which the
connector has passed on all but the last (`windowCount_of_hostRun`). -/
theorem everyCompletedRunCountsTheLines : Obligations.EveryCompletedRunCountsTheLines := by
  intro s lines turns k v h hramp hreset hk hv hfeed
  obtain ⟨ws, rest, t, hrun, -, -⟩ :=
    roundTripUnderBackpressure s (streamBytes lines) turns h (plain_of_mem_streamBytes lines)
  refine ⟨ws, rest, t, hrun, fun hfin => ?_⟩
  have hws := words_of_finished h hreset hrun hfin
  obtain ⟨xs, hcount, -, hto⟩ := windowCount_of_hostRun h hramp hk hfeed hrun
  obtain ⟨e, hxs⟩ := hto (by rw [hreset, Decoder.reset]; nofun) hfin
  obtain ⟨rfl, -⟩ := List.append_inj' (hxs.symm.trans hws) rfl
  exact ⟨hws, _, hcount, Window.samples_count (wellFormed_of_check h hk) hv _⟩

/-- Settles O43: the run of `streamIsDecodedAtFullThroughput` is a completed one. -/
theorem bytesToCountEndToEnd : Obligations.BytesToCountEndToEnd := by
  intro s lines k v h hready hramp hreset hk hv hfeed
  obtain ⟨t, hrun, hfin⟩ := streamIsDecodedAtFullThroughput s lines h hready hreset
  obtain ⟨ws', rest', t', hrun', hdone⟩ := everyCompletedRunCountsTheLines s lines _ k v h hramp hreset hk hv hfeed
  cases hrun.symm.trans hrun'
  obtain ⟨-, c, hcount, hc⟩ := hdone hfin
  exact ⟨_, t, c, hrun, hcount, hc⟩

end Sys2Proof.Machine
end
